-- ==== Sys2Proof/Word.lean ====
section
/-! DEFINITION. The words of the block: bytes, register offsets, decimal digits, ASCII strings (R10, R11). -/

namespace Sys2Proof

/-- A register's value: an unsigned 8-bit number (R10, R20). -/
abbrev Byte := BitVec 8

/-- A place in the 64-byte register window: a 6-bit offset (R50). -/
abbrev Offset := BitVec 6

/-- The value of one decimal digit, 0 to 9 (R7, R107). -/
abbrev Digit := Fin 10

/-- `dchar(n)`: the ASCII character of a digit, `0x30 + n` (R11). -/
def dchar (d : Digit) : Byte := 0x30#8 + BitVec.ofNat 8 d.val

/-- An ASCII literal as the list of its bytes (R11). -/
def ascii (s : String) : List Byte := s.toList.map fun c => BitVec.ofNat 8 c.toNat

end Sys2Proof
end

