-- ==== Sys2Proof/Config.lean ====
section
/-! DEFINITION. The constants of an instance (R8, R39): `P_CHECK_TEN`, the font table sets and the order matrices, as plain data
with the sizes R8 gives them, and the spec's default value of each. The machine takes them as an argument: they are carried in
`State.cfg`, which no step writes (log entry 5). -/

namespace Sys2Proof

/-- A font symbol: a string of one or two bytes (R150). -/
inductive Symbol where
  /-- A symbol of one byte. -/
  | one (b : Byte)
  /-- A symbol of two bytes, the first one first. -/
  | two (b0 b1 : Byte)
  deriving DecidableEq, Repr

/-- The bytes a symbol contributes to an encoded string (R150). -/
def Symbol.bytes : Symbol → List Byte
  | .one b => [b]
  | .two b0 b1 => [b0, b1]

/-- A table set of `tables` alphabets of ten symbols (R151) with an order matrix of ten rows and `len` columns, each cell the
number of a table (R152). -/
structure Font (tables len : Nat) where
  /-- `TS[var]`: table `t`, entry `k` is the symbol of digit `k` (R151). -/
  ts : Vector (Vector Symbol 10) tables
  /-- `ORD[var]`: row `f`, column `i` (R152). -/
  ord : Vector (Vector (Fin tables) len) 10
  deriving DecidableEq, Repr

/-- `TS[var][ORD[var][f][i]][d]`: the symbol of digit `d` at position `i` of a barcode whose first digit is `f` (R158). -/
def Font.symbolAt {tables len : Nat} (F : Font tables len) (f : Digit) (i : Fin len) (d : Digit) : Symbol :=
  F.ts[F.ord[f][i]][d]

/-- The implementation parameters (R8). -/
structure Config where
  /-- `P_CHECK_TEN`: the check value is 10, not 0, when the weighted sum is a multiple of 10 (R123). -/
  checkTen : Bool
  /-- `TS13` and `ORD13`. -/
  font13 : Font 6 13
  /-- `TS8` and `ORD8`. -/
  font8 : Font 5 8
  deriving DecidableEq, Repr

namespace Config

/-- Ten one-byte symbols from `base` on. -/
def alphabet (base : Byte) : Vector Symbol 10 :=
  #v[.one base, .one (base + 1), .one (base + 2), .one (base + 3), .one (base + 4),
     .one (base + 5), .one (base + 6), .one (base + 7), .one (base + 8), .one (base + 9)]

/-- Ten two-byte symbols: the delimiter `lead`, then the characters from `base` on. -/
def leading (lead base : Byte) : Vector Symbol 10 :=
  #v[.two lead base, .two lead (base + 1), .two lead (base + 2), .two lead (base + 3), .two lead (base + 4),
     .two lead (base + 5), .two lead (base + 6), .two lead (base + 7), .two lead (base + 8), .two lead (base + 9)]

/-- Ten two-byte symbols: the characters from `base` on, each followed by the delimiter `trail`. -/
def trailing (base trail : Byte) : Vector Symbol 10 :=
  #v[.two base trail, .two (base + 1) trail, .two (base + 2) trail, .two (base + 3) trail, .two (base + 4) trail,
     .two (base + 5) trail, .two (base + 6) trail, .two (base + 7) trail, .two (base + 8) trail, .two (base + 9) trail]

/-- Default `TS13` (R153): first-digit numeral, sets A and B, set C with leading `*`, set C, set C with trailing `+`.
PRESUMED but for the entries of R157 (general knowledge in the spec, G1); unsafe, log entry 7. -/
def ts13 : Vector (Vector Symbol 10) 6 :=
  #v[alphabet 0x30, alphabet 0x41, alphabet 0x4B, leading 0x2A 0x61, alphabet 0x61, trailing 0x61 0x2B]

/-- Default `ORD13` (R154). PRESUMED but for row 5 (general knowledge in the spec, G2); unsafe, log entry 7. -/
def ord13 : Vector (Vector (Fin 6) 13) 10 :=
  #v[#v[0, 1, 1, 1, 1, 1, 1, 3, 4, 4, 4, 4, 5],
     #v[0, 1, 1, 2, 1, 2, 2, 3, 4, 4, 4, 4, 5],
     #v[0, 1, 1, 2, 2, 1, 2, 3, 4, 4, 4, 4, 5],
     #v[0, 1, 1, 2, 2, 2, 1, 3, 4, 4, 4, 4, 5],
     #v[0, 1, 2, 1, 1, 2, 2, 3, 4, 4, 4, 4, 5],
     #v[0, 1, 2, 2, 1, 1, 2, 3, 4, 4, 4, 4, 5],
     #v[0, 1, 2, 2, 2, 1, 1, 3, 4, 4, 4, 4, 5],
     #v[0, 1, 2, 1, 2, 1, 2, 3, 4, 4, 4, 4, 5],
     #v[0, 1, 2, 1, 2, 2, 1, 3, 4, 4, 4, 4, 5],
     #v[0, 1, 2, 2, 1, 2, 1, 3, 4, 4, 4, 4, 5]]

/-- Default `TS8` (R155): set A with leading `:`, set A, set C with leading `*`, set C, set C with trailing `+`.
PRESUMED but for the entries of R157 (general knowledge in the spec, G1); unsafe, log entry 7. -/
def ts8 : Vector (Vector Symbol 10) 5 :=
  #v[leading 0x3A 0x41, alphabet 0x41, leading 0x2A 0x61, alphabet 0x61, trailing 0x61 0x2B]

/-- Default `ORD8` (R156): ten rows, all alike, kept as ten. -/
def ord8 : Vector (Vector (Fin 5) 8) 10 :=
  #v[#v[0, 1, 1, 1, 2, 3, 3, 4],
     #v[0, 1, 1, 1, 2, 3, 3, 4],
     #v[0, 1, 1, 1, 2, 3, 3, 4],
     #v[0, 1, 1, 1, 2, 3, 3, 4],
     #v[0, 1, 1, 1, 2, 3, 3, 4],
     #v[0, 1, 1, 1, 2, 3, 3, 4],
     #v[0, 1, 1, 1, 2, 3, 3, 4],
     #v[0, 1, 1, 1, 2, 3, 3, 4],
     #v[0, 1, 1, 1, 2, 3, 3, 4],
     #v[0, 1, 1, 1, 2, 3, 3, 4]]

/-- The spec's default configuration (R8): `P_CHECK_TEN = false` (D8; unsafe for the reviewed repository, log entry 6). -/
def default : Config :=
  { checkTen := false, font13 := { ts := ts13, ord := ord13 }, font8 := { ts := ts8, ord := ord8 } }

end Config

end Sys2Proof
end

