-- ==== Sys2Proof/Syntax.lean ====
section
/-! DEFINITION. The commands (R76), one constructor per row of spec/opcode_table.json, and the raw fields of a command word (R70). -/

namespace Sys2Proof

/-- `ARGK`: the kind of the operand the caller supplied (R74). -/
inductive ArgKind where
  /-- `ARGK = 0`: the operand is the string in the operand registers. -/
  | text
  /-- `ARGK = 1` (qualifier `.NT`): the operand is not textual data. -/
  | nonText
  deriving DecidableEq, Repr

/-- `VAR`: the two variants (R71). -/
inductive Variant where
  /-- EAN-13, `VAR = 0b00`. -/
  | ean13
  /-- EAN-8, `VAR = 0b01`. -/
  | ean8
  deriving DecidableEq, Repr

/-- The eight commands of R76. `nv` is the `NV` bit (qualifier `.NV`), which only `ENCODE` has (R73). -/
inductive Instr where
  /-- `CHECKSUM.EAN13` (R125). -/
  | checksumEan13 (argk : ArgKind)
  /-- `ISVALID.EAN13` (R126). -/
  | isvalidEan13 (argk : ArgKind)
  /-- `FIX.EAN13` (R127). -/
  | fixEan13 (argk : ArgKind)
  /-- `ENCODE.EAN13` (R161). -/
  | encodeEan13 (nv : Bool) (argk : ArgKind)
  /-- `CHECKSUM.EAN8` (R125). -/
  | checksumEan8 (argk : ArgKind)
  /-- `ISVALID.EAN8` (R126). -/
  | isvalidEan8 (argk : ArgKind)
  /-- `FIX.EAN8` (R127). -/
  | fixEan8 (argk : ArgKind)
  /-- `ENCODE.EAN8` (R161). -/
  | encodeEan8 (nv : Bool) (argk : ArgKind)
  deriving DecidableEq, Repr

/-- The fields of a command word before any check (R70). -/
structure CommandFields where
  /-- `OP`, bits 1:0 (R72). -/
  op : BitVec 2
  /-- `VAR`, bits 3:2 (R71). -/
  var : BitVec 2
  /-- `NV`, bit 4 (R73). -/
  nv : Bool
  /-- `ARGK`, bit 5 (R74). -/
  argk : Bool
  /-- `RSV`, bits 7:6 (R75). -/
  rsv : BitVec 2
  deriving DecidableEq, Repr

end Sys2Proof
end

