-- ==== Sys2Proof/WellFormed.lean ====
section
/-! DEFINITION. The checks a command word's fields must pass to be a command (R77, R101), and the checks a configuration must
pass (R9). A term of `Instr` carries its operand fields in types that allow no other value, so every one is well formed. -/

namespace Sys2Proof

/-- `VAR` names a variant (R71). -/
def CommandFields.variantDefined (f : CommandFields) : Bool := f.var.toNat < 2

/-- `RSV` is zero (R75). -/
def CommandFields.reservedZero (f : CommandFields) : Bool := f.rsv == 0#2

/-- `NV` is set only with `OP = ENCODE` (R73). -/
def CommandFields.nvAllowed (f : CommandFields) : Bool := !f.nv || f.op == 3#2

/-- The word with these fields is legal (R77). -/
def CommandFields.wf (f : CommandFields) : Bool := f.variantDefined && f.reservedZero && f.nvAllowed

/-- `ARGK` as a bit (R74). -/
def ArgKind.bit : ArgKind → Bool
  | .text => false
  | .nonText => true

/-- The fields of the word of a command (R70 to R76). -/
def Instr.fields : Instr → CommandFields
  | .checksumEan13 k => ⟨0, 0, false, k.bit, 0⟩
  | .isvalidEan13 k => ⟨1, 0, false, k.bit, 0⟩
  | .fixEan13 k => ⟨2, 0, false, k.bit, 0⟩
  | .encodeEan13 nv k => ⟨3, 0, nv, k.bit, 0⟩
  | .checksumEan8 k => ⟨0, 1, false, k.bit, 0⟩
  | .isvalidEan8 k => ⟨1, 1, false, k.bit, 0⟩
  | .fixEan8 k => ⟨2, 1, false, k.bit, 0⟩
  | .encodeEan8 nv k => ⟨3, 1, nv, k.bit, 0⟩

/-- A command is well formed when its word's fields are. -/
def Instr.wf (i : Instr) : Bool := i.fields.wf

/-- EAN-13, first digit 5: the symbols the source's vector fixes, position by position (R157). -/
def Config.vector13 (c : Config) : Bool :=
  [c.font13.symbolAt 5 0 5, c.font13.symbolAt 5 1 0, c.font13.symbolAt 5 2 5, c.font13.symbolAt 5 3 6,
   c.font13.symbolAt 5 4 5, c.font13.symbolAt 5 5 0, c.font13.symbolAt 5 6 1, c.font13.symbolAt 5 7 2,
   c.font13.symbolAt 5 8 8, c.font13.symbolAt 5 9 7, c.font13.symbolAt 5 10 1, c.font13.symbolAt 5 11 5,
   c.font13.symbolAt 5 12 5].map Symbol.bytes ==
  [ascii "5", ascii "A", ascii "P", ascii "Q", ascii "F", ascii "A", ascii "L", ascii "*c", ascii "i", ascii "h",
   ascii "b", ascii "f", ascii "f+"]

/-- EAN-8, first digit 4: the symbols the source's vector fixes, position by position (R157). -/
def Config.vector8 (c : Config) : Bool :=
  [c.font8.symbolAt 4 0 4, c.font8.symbolAt 4 1 7, c.font8.symbolAt 4 2 1, c.font8.symbolAt 4 3 9,
   c.font8.symbolAt 4 4 5, c.font8.symbolAt 4 5 1, c.font8.symbolAt 4 6 2, c.font8.symbolAt 4 7 7].map Symbol.bytes ==
  [ascii ":E", ascii "H", ascii "B", ascii "J", ascii "*f", ascii "b", ascii "c", ascii "h+"]

/-- Every row of `ORD8` is the row of first digit 4 (R156, R157). DEDUCED, log entry 9. -/
def Config.rows8Alike (c : Config) : Bool := c.font8.ord.toList.all (· == c.font8.ord[4])

/-- A well-formed configuration (R9). That symbols have one or two bytes and that order entries are below the number of tables is
in the types of `Symbol` and `Font`. -/
def Config.wf (c : Config) : Bool := c.vector13 && c.vector8 && c.rows8Alike

end Sys2Proof
end

