-- ==== Sys2Proof/Decode.lean ====
section
/-! DEFINITION. Decoding a command word (R70 to R77, R101), total on every byte and rejecting by name, and the encoder. -/

namespace Sys2Proof

/-- Why a command word is illegal (R77). -/
inductive Reject where
  /-- `VAR` is 2 or 3. -/
  | reservedVariant
  /-- `RSV` is not 0. -/
  | reservedBits
  /-- `NV = 1` with `OP` other than `ENCODE`. -/
  | nvWithoutEncode
  deriving DecidableEq, Repr

/-- The fields of a command word (R70). -/
def splitFields (w : Byte) : CommandFields :=
  { op := w.extractLsb' 0 2, var := w.extractLsb' 2 2, nv := w.getLsbD 4, argk := w.getLsbD 5, rsv := w.extractLsb' 6 2 }

/-- The command word with given fields, most significant field first: `RSV ARGK NV VAR OP` (R70). -/
def packFields (f : CommandFields) : Byte :=
  f.rsv ++ (BitVec.ofBool f.argk ++ (BitVec.ofBool f.nv ++ (f.var ++ f.op)))

/-- The operand kind of an `ARGK` bit (R74). -/
def argKindOf (b : Bool) : ArgKind := if b then .nonText else .text

/-- The command of well-formed fields (R71, R72, R76). -/
def assemble (f : CommandFields) : Instr :=
  match f.var == 0#2, f.op.toNat with
  | true, 0 => .checksumEan13 (argKindOf f.argk)
  | true, 1 => .isvalidEan13 (argKindOf f.argk)
  | true, 2 => .fixEan13 (argKindOf f.argk)
  | true, _ => .encodeEan13 f.nv (argKindOf f.argk)
  | false, 0 => .checksumEan8 (argKindOf f.argk)
  | false, 1 => .isvalidEan8 (argKindOf f.argk)
  | false, 2 => .fixEan8 (argKindOf f.argk)
  | false, _ => .encodeEan8 f.nv (argKindOf f.argk)

/-- Decode a command word (R76, R77, R101). -/
def decode (w : Byte) : Except Reject Instr :=
  if !(splitFields w).variantDefined then .error .reservedVariant
  else if !(splitFields w).reservedZero then .error .reservedBits
  else if !(splitFields w).nvAllowed then .error .nvWithoutEncode
  else .ok (assemble (splitFields w))

/-- The command word of a command (R76). -/
def encode (i : Instr) : Byte := packFields i.fields

/-- What the decoder reads from an instruction numbered as spec/opcode_table.json numbers it: every instruction is the one byte
of bits 7:0 (R79), so a number that needs more bits is no instruction (DESIGN CHOICE, safe, log entry 15). -/
def decodeTableWord (nbits w : Nat) : Option Instr :=
  if nbits ≤ 8 ∧ w < 2 ^ nbits then
    match decode (BitVec.ofNat 8 w) with
    | .ok i => some i
    | .error _ => none
  else none

end Sys2Proof
end

