-- ==== Sys2Proof/Machine/State.lean ====
section
/-! DEFINITION. What the machine holds, as plain data: the block's registers and latches (R20 to R34), the instance's constants
(R39) and, the model's own, the block's environment: what the host still does, what it has read, and who moves next. -/

namespace Sys2Proof.Machine

/-- The architectural state (R20), every register under its own name. `CMD` is read as `lcmd` (R21); the `STATUS` byte is made of
`busy`, `done`, `err`, `valid` and `ovr`, its other bits having no storage (R22, I6). -/
structure Block where
  /-- `STATUS.BUSY` (R22). -/
  busy : Bool
  /-- `STATUS.DONE` (R22). -/
  done : Bool
  /-- `STATUS.ERR` (R22). -/
  err : Bool
  /-- `STATUS.VALID` (R22). -/
  valid : Bool
  /-- `STATUS.OVR` (R22). -/
  ovr : Bool
  /-- `ERRCODE` (R23). -/
  errcode : Byte
  /-- `ERRNL` (R24). -/
  errnl : Byte
  /-- `ERRL0` (R25). -/
  errl0 : Byte
  /-- `ERRL1` (R26). -/
  errl1 : Byte
  /-- `INLEN` (R27). -/
  inlen : Byte
  /-- `IN[0..15]` (R28). -/
  inBuf : Vector Byte 16
  /-- `ACC` (R29). -/
  acc : Byte
  /-- `CHK` (R30). -/
  chk : Byte
  /-- `OUTLEN` (R31). -/
  outlen : Byte
  /-- `OUT[0..31]` (R32). -/
  outBuf : Vector Byte 32
  /-- `LCMD` (R33). -/
  lcmd : Byte
  /-- `LINLEN` (R33). -/
  linlen : Byte
  /-- `LIN[0..15]` (R33). -/
  lin : Vector Byte 16
  deriving DecidableEq, Repr

/-- Who takes a step (R15, R250). -/
inductive Turn where
  /-- The host makes one transaction. -/
  | host
  /-- The engine completes the command in flight. -/
  | engine
  /-- The reset input is asserted. -/
  | reset
  deriving DecidableEq, Repr

/-- What the host does in one of its turns: one transaction (R55 to R59), alone or as part of a pseudo-instruction (R81). -/
inductive HostOp where
  /-- `R off -> x`. -/
  | read (off : Offset)
  /-- `W off, v`. -/
  | write (off : Offset) (v : Byte)
  /-- One round of `WAITDONE`: read `STATUS`, and do it again unless `DONE` was 1. -/
  | pollDone
  /-- The first read of `READOUT`: read `OUTLEN`, then read that many bytes of `OUT`. -/
  | readOutLen
  /-- An access of `extra + 2` bytes: outside the spec (R54, I11). -/
  | wide (off : Offset) (extra : Nat)
  deriving DecidableEq, Repr

/-- The block's environment: the model's own fields, no state of the block (log entries 1, 2). -/
structure Env where
  /-- Who takes the next steps, first one first. When it is empty, a busy engine moves, and otherwise the host. -/
  turns : List Turn
  /-- What the host still does, in order; the transactions of several hosts are merged in it (R61). -/
  ops : List HostOp
  /-- What the host's reads returned, oldest first, each with its offset. -/
  reads : List (Offset × Byte)
  deriving DecidableEq, Repr

/-- The state of the machine. -/
structure State where
  /-- The registers and latches of the block (R20). -/
  blk : Block
  /-- The instance's constants (R39): no step writes them (log entry 5). -/
  cfg : Config
  /-- The environment (log entries 1, 2). -/
  env : Env
  deriving DecidableEq, Repr

/-- No step of this block faults: errors are completions (R205), and no access raises one (R210). So there is no fault to name
(log entry 12). -/
inductive Fault where
  deriving DecidableEq, Repr

/-- Why the model gives a step no meaning. -/
inductive Refusal where
  /-- Raised by an arm of `exec` whose instruction has no meaning yet; safe. None is left. -/
  | notModelled (mnemonic : String)
  /-- Raised by the host's turn on an access wider than one byte, which is outside the spec (R54, I11); safe, log entry 8. -/
  | wideAccess
  deriving DecidableEq, Repr

/-- Every register and latch after reset (R38, R250). -/
def Block.reset : Block :=
  { busy := false, done := false, err := false, valid := false, ovr := false
    errcode := 0x00, errnl := 0x00, errl0 := 0x00, errl1 := 0x00
    inlen := 0x00, inBuf := Vector.replicate 16 0x00
    acc := 0x00, chk := 0x00, outlen := 0x00, outBuf := Vector.replicate 32 0x00
    lcmd := 0x00, linlen := 0x00, lin := Vector.replicate 16 0x00 }

/-- The machine right after reset: the block as R38 says, the spec's default constants (R8), and a host with nothing to do
(DESIGN CHOICE, log entries 1 to 3). -/
def State.reset : State :=
  { blk := Block.reset, cfg := Config.default, env := { turns := [], ops := [], reads := [] } }

end Sys2Proof.Machine
end

