-- ==== Sys2Proof/Machine/Flags.lean ====
section
/-! DEFINITION. The `STATUS` flags (R22, R35): the byte the host reads, and the writes that reach a flag outside completion. -/

namespace Sys2Proof.Machine

/-- The `STATUS` register as the host reads it: bits 4 to 0 are `OVR`, `VALID`, `ERR`, `DONE`, `BUSY`, bits 7:5 read 0 (R22). -/
def statusByte (b : Block) : Byte :=
  0#3 ++ (BitVec.ofBool b.ovr ++ (BitVec.ofBool b.valid ++ (BitVec.ofBool b.err ++ (BitVec.ofBool b.done ++ BitVec.ofBool b.busy))))

/-- A host write to `STATUS`: bit 4 of `v` clears `OVR`, every other bit is ignored (R58). -/
def writeStatus (v : Byte) (b : Block) : Block := { b with ovr := b.ovr && !v.getLsbD 4 }

/-- A `CMD` write dropped while busy (R59, R208). -/
def dropIssue (b : Block) : Block := { b with ovr := true }

end Sys2Proof.Machine
end

