-- ==== Sys2Proof/Machine/Result.lean ====
section
/-! DEFINITION. What a command's rule hands to the completion step: the result record of R60, the errors of R200 with the
information of R202, and a rule's list of accepted lengths (R104). -/

namespace Sys2Proof.Machine

/-- An ordered list of accepted operand lengths, in increasing order (R104). -/
inductive Accepted where
  /-- One accepted length. -/
  | single (n : Nat)
  /-- Two accepted lengths, the smaller first. -/
  | either (m n : Nat)
  deriving DecidableEq, Repr

/-- The errors a command can end in (R200) with what each records (R202). -/
inductive CmdError where
  /-- The command word matches no row (R101). -/
  | illegalCmd
  /-- `ARGK = 1` (R103). -/
  | typeMismatch
  /-- The operand's length is not accepted (R105). -/
  | lengthMismatch (accepted : Accepted)
  /-- The operand's byte `index` is the first that is no digit (R106). -/
  | nonDigit (index : Nat)
  /-- The check digit does not match, with the payload's sum and check value (R161). -/
  | invalidBarcode (acc chk : Byte)
  deriving DecidableEq, Repr

/-- The result record of a command: a field its rule does not name is 0 (R60). -/
structure Result where
  /-- To `STATUS.ERR`. -/
  err : Bool := false
  /-- To `ERRCODE`. -/
  errcode : Byte := 0
  /-- To `ERRNL`. -/
  errnl : Byte := 0
  /-- To `ERRL0`. -/
  errl0 : Byte := 0
  /-- To `ERRL1`. -/
  errl1 : Byte := 0
  /-- To `STATUS.VALID`. -/
  valid : Bool := false
  /-- To `ACC`. -/
  acc : Byte := 0
  /-- To `CHK`. -/
  chk : Byte := 0
  /-- To `OUTLEN` and `OUT`. -/
  out : List Byte := []
  deriving DecidableEq, Repr

/-- What an instruction answers. -/
abbrev Answer := Host.Outcome State Fault Refusal

end Sys2Proof.Machine
end

