-- ==== Sys2Proof/Machine/Operands.lean ====
section
/-! DEFINITION. The operand of the command in flight and the admission front end (R100 to R107). -/

namespace Sys2Proof.Machine

/-- `L`: the full length of a variant (R102). -/
def fullLen : Variant → Nat
  | .ean13 => 13
  | .ean8 => 8

/-- `P`: the payload length of a variant, one less (R102). -/
def payloadLen (v : Variant) : Nat := fullLen v - 1

/-- `s`: the operand string `LIN[0..min(LINLEN,16))` (R33, R100). -/
def operand (b : Block) : List Byte := b.lin.toList.take (min b.linlen.toNat 16)

/-- `digit(b)`, defined only when `isdigit(b)` (R11). -/
def digitOf (b : Byte) : Option Digit :=
  if h : 0x30 ≤ b.toNat ∧ b.toNat ≤ 0x39 then some ⟨b.toNat - 0x30, by omega⟩ else none

/-- Read a string as digits from index `i` on: all its digits (R107), or the index of its first byte that is none (R106). -/
def readDigits (i : Nat) : List Byte → Except Nat (List Digit)
  | [] => .ok []
  | b :: s =>
    match digitOf b, readDigits (i + 1) s with
    | none, _ => .error i
    | some _, .error k => .error k
    | some d, .ok ds => .ok (d :: ds)

/-- `n in A` (R105). -/
def Accepted.has (n : Nat) : Accepted → Bool
  | .single m => n == m
  | .either m k => n == m || n == k

/-- The type, length and digit checks, in this order (R100 steps 2 to 4): the operand's digits, or the first check's error.
Decoding (step 1) comes before and dispatch (step 5) after. -/
def admission (k : ArgKind) (a : Accepted) (b : Block) : Except CmdError (List Digit) :=
  match k with
  | .nonText => .error .typeMismatch
  | .text =>
    if a.has b.linlen.toNat then
      match readDigits 0 (operand b) with
      | .error i => .error (.nonDigit i)
      | .ok ds => .ok ds
    else .error (.lengthMismatch a)

end Sys2Proof.Machine
end

