-- ==== Sys2Proof/Machine/Ops.lean ====
section
/-! DEFINITION. The shared operations over the block's registers: completion (R60), the error entry (R205), issue (R59), the
register map with its reads and writes (R51 to R59), reset (R250), and whose turn it is. -/

namespace Sys2Proof.Machine

/-- The first `n` bytes of a string, filled up with 0x00. -/
def padTo : Nat → List Byte → List Byte
  | 0, _ => []
  | n + 1, [] => 0x00 :: padTo n []
  | n + 1, b :: s => b :: padTo n s

theorem padTo_length (n : Nat) (s : List Byte) : (padTo n s).length = n := by
  induction n generalizing s with
  | zero => rfl
  | succ n ih => cases s <;> simp [padTo, ih]

/-- `OUT[i] <- (i < len(out)) ? out[i] : 0x00` for `i` from 0 to 31 (R60). -/
def packOut (out : List Byte) : Vector Byte 32 := ⟨⟨padTo 32 out⟩, padTo_length 32 out⟩

/-- The completion step's writes of a result record (R60). -/
def complete (r : Result) (b : Block) : Block :=
  { b with
    err := r.err, valid := r.valid
    errcode := r.errcode, errnl := r.errnl, errl0 := r.errl0, errl1 := r.errl1
    acc := r.acc, chk := r.chk
    outlen := BitVec.ofNat 8 r.out.length, outBuf := packOut r.out
    busy := false, done := true }

/-- The error entry: the result record an error makes (R205), with its code (R200) and its information (R202). There is no return
from an error beside it: no handler, no saved state, no return instruction (R207). -/
def raise : CmdError → Result
  | .illegalCmd => { err := true, errcode := 1 }
  | .typeMismatch => { err := true, errcode := 2 }
  | .lengthMismatch (.single n) => { err := true, errcode := 3, errnl := 1, errl0 := BitVec.ofNat 8 n }
  | .lengthMismatch (.either m n) =>
    { err := true, errcode := 3, errnl := 2, errl0 := BitVec.ofNat 8 m, errl1 := BitVec.ofNat 8 n }
  | .nonDigit i => { err := true, errcode := 4, errl0 := BitVec.ofNat 8 i }
  | .invalidBarcode acc chk => { err := true, errcode := 5, acc := acc, chk := chk }

/-- End a command with a result record: one indivisible step that changes the block alone (R60). -/
def finish (s : State) (r : Result) : Answer := .next { s with blk := complete r s.blk }

/-- The completion of an illegal command word (R77, R101). -/
def illegalCommand (s : State) : Answer := finish s (raise .illegalCmd)

/-- A `CMD` write accepted while idle (R59). -/
def issue (v : Byte) (b : Block) : Block :=
  { b with lcmd := v, linlen := b.inlen, lin := b.inBuf, busy := true, done := false }

/-- The places of the register map (R51). -/
inductive Reg where
  | cmd | status | errcode | errnl | errl0 | errl1 | inlen | acc | chk | outlen
  /-- Offsets 0x0A to 0x0F: no storage (R34). -/
  | reserved
  | inByte (i : Fin 16)
  | outByte (i : Fin 32)
  deriving DecidableEq, Repr

/-- The register map: which register stands at an offset (R51). -/
def regAt (off : Offset) : Reg :=
  if h : off.toNat < 0x10 then
    match off.toNat with
    | 0x00 => .cmd
    | 0x01 => .status
    | 0x02 => .errcode
    | 0x03 => .errnl
    | 0x04 => .errl0
    | 0x05 => .errl1
    | 0x06 => .inlen
    | 0x07 => .acc
    | 0x08 => .chk
    | 0x09 => .outlen
    | _ => .reserved
  else if h' : off.toNat < 0x20 then .inByte ⟨off.toNat - 0x10, by omega⟩
  else .outByte ⟨off.toNat - 0x20, by have := off.isLt; omega⟩

/-- A host read: the register's current value (R55). It changes nothing. -/
def readReg (off : Offset) (b : Block) : Byte :=
  match regAt off with
  | .cmd => b.lcmd
  | .status => statusByte b
  | .errcode => b.errcode
  | .errnl => b.errnl
  | .errl0 => b.errl0
  | .errl1 => b.errl1
  | .inlen => b.inlen
  | .acc => b.acc
  | .chk => b.chk
  | .outlen => b.outlen
  | .reserved => 0x00
  | .inByte i => b.inBuf[i]
  | .outByte i => b.outBuf[i]

/-- A host write: `CMD` issues or is dropped (R59), `STATUS` clears `OVR` (R58), `INLEN` and `IN[i]` take the byte (R56), every
other offset ignores it (R57). -/
def writeReg (off : Offset) (v : Byte) (b : Block) : Block :=
  match regAt off with
  | .cmd => if b.busy then dropIssue b else issue v b
  | .status => writeStatus v b
  | .inlen => { b with inlen := v }
  | .inByte i => { b with inBuf := b.inBuf.set i v }
  | .errcode | .errnl | .errl0 | .errl1 | .acc | .chk | .outlen | .reserved | .outByte _ => b

/-- Asserting the reset input (R250): every register and latch of the block takes its reset value, and a command in flight is
abandoned (R251). The constants stay (R39), and so does the host, which is no part of the block (DESIGN CHOICE, log entry 10). -/
def resetBlock (s : State) : State := { s with blk := Block.reset }

/-- Who takes the next step: the first of the listed turns. Without one, a busy engine, so that its completion comes (the weak
fairness of R258), and otherwise the host (DESIGN CHOICE, log entry 1). -/
def mover (s : State) : Turn :=
  match s.env.turns with
  | t :: _ => t
  | [] => if s.blk.busy then .engine else .host

/-- The state with the turn now taken struck off the list. -/
def takeTurn (s : State) : State := { s with env := { s.env with turns := s.env.turns.tail } }

/-- The command word the engine's step executes: `LCMD`, and only while `BUSY = 1` (R60). -/
def commandInFlight (b : Block) : Option Byte := if b.busy then some b.lcmd else none

end Sys2Proof.Machine
end

