-- ==== Sys2Proof/Machine/Checksum.lean ====
section
/-! DEFINITION. The weighted mod-10 accumulator (R120 to R124) and the commands `CHECKSUM`, `ISVALID` and `FIX` (R125 to R127). -/

namespace Sys2Proof.Machine

/-- The weight of payload position `i` (R120, R121): the variants have opposite parities. -/
def weight : Variant → Nat → Nat
  | .ean13, i => if i % 2 = 0 then 1 else 3
  | .ean8, i => if i % 2 = 0 then 3 else 1

/-- The accumulation loop of R122 from position `i` on, over the 8-bit accumulator. -/
def accumFrom (v : Variant) : Nat → Byte → List Digit → Byte
  | _, acc, [] => acc
  | i, acc, d :: ds => accumFrom v (i + 1) (acc + BitVec.ofNat 8 (d.val * weight v i)) ds

/-- `ACCUM(var, d)` (R122). -/
def accum (v : Variant) (ds : List Digit) : Byte := accumFrom v 0 0 ds

/-- `CHECK(acc)` (R123), with `P_CHECK_TEN` as an argument. -/
def check (ten : Bool) (acc : Byte) : Byte :=
  if acc.toNat % 10 = 0 then (if ten then 10 else 0) else BitVec.ofNat 8 (10 - acc.toNat % 10)

/-- `chkstr(k)` (R124). -/
def chkstr (k : Byte) : List Byte := if k.toNat ≤ 9 then [0x30 + k] else [0x31, 0x30]

/-- `(chk <= 9) and (d[L-1] = chk)` (R126, R161): the last digit of a full barcode is the check value of its payload. -/
def checkMatches (v : Variant) (chk : Byte) (ds : List Digit) : Bool :=
  match ds[payloadLen v]? with
  | some d => decide (chk.toNat ≤ 9) && d.val == chk.toNat
  | none => false

/-- The sum of a barcode's payload digits (R125 to R127, R161). -/
def payloadAccum (v : Variant) (ds : List Digit) : Byte := accum v (ds.take (payloadLen v))

/-- The result record of `CHECKSUM` (R125). -/
def checksumResult (v : Variant) (k : ArgKind) (s : State) : Result :=
  match admission k (.single (payloadLen v)) s.blk with
  | .error e => raise e
  | .ok ds =>
    { acc := payloadAccum v ds, chk := check s.cfg.checkTen (payloadAccum v ds)
      out := chkstr (check s.cfg.checkTen (payloadAccum v ds)) }

/-- The result record of `ISVALID` (R126). -/
def isvalidResult (v : Variant) (k : ArgKind) (s : State) : Result :=
  match admission k (.single (fullLen v)) s.blk with
  | .error e => raise e
  | .ok ds =>
    { valid := checkMatches v (check s.cfg.checkTen (payloadAccum v ds)) ds
      acc := payloadAccum v ds, chk := check s.cfg.checkTen (payloadAccum v ds) }

/-- The result record of `FIX` (R127). -/
def fixResult (v : Variant) (k : ArgKind) (s : State) : Result :=
  match admission k (.either (payloadLen v) (fullLen v)) s.blk with
  | .error e => raise e
  | .ok ds =>
    { acc := payloadAccum v ds, chk := check s.cfg.checkTen (payloadAccum v ds)
      out := (operand s.blk).take (payloadLen v) ++ chkstr (check s.cfg.checkTen (payloadAccum v ds)) }

/-- `CHECKSUM.EAN13` (R125). -/
def execChecksumEan13 (k : ArgKind) (s : State) : Answer := finish s (checksumResult .ean13 k s)

/-- `CHECKSUM.EAN8` (R125). -/
def execChecksumEan8 (k : ArgKind) (s : State) : Answer := finish s (checksumResult .ean8 k s)

/-- `ISVALID.EAN13` (R126). -/
def execIsvalidEan13 (k : ArgKind) (s : State) : Answer := finish s (isvalidResult .ean13 k s)

/-- `ISVALID.EAN8` (R126). -/
def execIsvalidEan8 (k : ArgKind) (s : State) : Answer := finish s (isvalidResult .ean8 k s)

/-- `FIX.EAN13` (R127). -/
def execFixEan13 (k : ArgKind) (s : State) : Answer := finish s (fixResult .ean13 k s)

/-- `FIX.EAN8` (R127). -/
def execFixEan8 (k : ArgKind) (s : State) : Answer := finish s (fixResult .ean8 k s)

end Sys2Proof.Machine
end

