-- ==== Sys2Proof/Machine/FontEncode.lean ====
section
/-! DEFINITION. The font-encoding lookup (R158) and the command `ENCODE` (R161). -/

namespace Sys2Proof.Machine

/-- The bytes of the symbols of digits `ds` under the table indices `row`, position by position, left to right (R158). -/
def fontRow {tables : Nat} (ts : Vector (Vector Symbol 10) tables) : List (Fin tables) → List Digit → List Byte
  | t :: row, d :: ds => ts[t][d].bytes ++ fontRow ts row ds
  | _, _ => []

/-- `FONTENC` over one font: the first digit selects the row of the order matrix (R158). -/
def fontString {tables len : Nat} (F : Font tables len) (ds : List Digit) : List Byte :=
  match ds with
  | [] => []
  | f :: _ => fontRow F.ts F.ord[f].toList ds

/-- `FONTENC(var, d)` (R158). -/
def fontenc (c : Config) : Variant → List Digit → List Byte
  | .ean13, ds => fontString c.font13 ds
  | .ean8, ds => fontString c.font8 ds

/-- The result record of `ENCODE` (R161): with `NV = 0` the check digit must match; with `NV = 1` no checksum is computed. -/
def encodeResult (v : Variant) (nv : Bool) (k : ArgKind) (s : State) : Result :=
  match admission k (.single (fullLen v)) s.blk with
  | .error e => raise e
  | .ok ds =>
    match nv with
    | true => { out := fontenc s.cfg v ds }
    | false =>
      if checkMatches v (check s.cfg.checkTen (payloadAccum v ds)) ds then
        { acc := payloadAccum v ds, chk := check s.cfg.checkTen (payloadAccum v ds), out := fontenc s.cfg v ds }
      else raise (.invalidBarcode (payloadAccum v ds) (check s.cfg.checkTen (payloadAccum v ds)))

/-- `ENCODE.EAN13` (R161). -/
def execEncodeEan13 (nv : Bool) (k : ArgKind) (s : State) : Answer := finish s (encodeResult .ean13 nv k s)

/-- `ENCODE.EAN8` (R161). -/
def execEncodeEan8 (nv : Bool) (k : ArgKind) (s : State) : Answer := finish s (encodeResult .ean8 nv k s)

end Sys2Proof.Machine
end

