-- ==== Sys2Proof/Machine/Dispatch.lean ====
section
/-! DEFINITION. One arm per command (R108). -/

namespace Sys2Proof.Machine

/-- Complete a decoded command: its type, length and digit checks, its rule, and the writes of its result record (R60, R100). -/
def exec (i : Instr) (s : State) : Host.Outcome State Fault Refusal :=
  match i with
  | .checksumEan13 k => Sys2Proof.Machine.execChecksumEan13 k s
  | .isvalidEan13 k => Sys2Proof.Machine.execIsvalidEan13 k s
  | .fixEan13 k => Sys2Proof.Machine.execFixEan13 k s
  | .encodeEan13 nv k => Sys2Proof.Machine.execEncodeEan13 nv k s
  | .checksumEan8 k => Sys2Proof.Machine.execChecksumEan8 k s
  | .isvalidEan8 k => Sys2Proof.Machine.execIsvalidEan8 k s
  | .fixEan8 k => Sys2Proof.Machine.execFixEan8 k s
  | .encodeEan8 nv k => Sys2Proof.Machine.execEncodeEan8 nv k s

end Sys2Proof.Machine
end

