-- ==== Sys2Proof/Machine/HostPort.lean ====
section
/-! DEFINITION. The host's turn: one transaction on the register window (R55 to R59), and the pseudo-instructions of the
host-script notation as lists of host operations (R80, R81). -/

namespace Sys2Proof.Machine

/-- The host reads `off`: the byte goes to its list of reads, and `rest` is what it does next (R55). -/
def hostRead (off : Offset) (rest : List HostOp) (s : State) : State :=
  { s with env := { s.env with ops := rest, reads := s.env.reads ++ [(off, readReg off s.blk)] } }

/-- The host writes `v` to `off`, and `rest` is what it does next (R56 to R59). -/
def hostWrite (off : Offset) (v : Byte) (rest : List HostOp) (s : State) : State :=
  { s with blk := writeReg off v s.blk, env := { s.env with ops := rest } }

/-- `R 0x20+i -> o[i]` for each `i < n` (R81). `OUTLEN` is at most 32 (R31); a larger `n`, which no run reaches, reads the 32 bytes
there are (DEDUCED, log entry 16). -/
def readOutBytes (n : Nat) : List HostOp := (List.range (min n 32)).map fun i => .read (BitVec.ofNat 6 (0x20 + i))

/-- One turn of the host: its next transaction. With nothing to do it lets its turn pass. -/
def hostTurn (s : State) : Answer :=
  match s.env.ops with
  | [] => .next s
  | .read off :: rest => .next (hostRead off rest s)
  | .write off v :: rest => .next (hostWrite off v rest s)
  | .pollDone :: rest => .next (hostRead 0x01 (if s.blk.done then rest else .pollDone :: rest) s)
  | .readOutLen :: rest => .next (hostRead 0x09 (readOutBytes s.blk.outlen.toNat ++ rest) s)
  | .wide _ _ :: _ => .refused .wideAccess

/-- `W 0x10+i, s[i]` for the bytes of a string from index `i` on (R81). -/
def writeIn (i : Nat) : List Byte → List HostOp
  | [] => []
  | b :: s => .write (BitVec.ofNat 6 (0x10 + i)) b :: writeIn (i + 1) s

/-- `LOADSTR "s"` (R81). -/
def loadStr (s : List Byte) : List HostOp := .write 0x06 (BitVec.ofNat 8 (min s.length 255)) :: writeIn 0 (s.take 16)

/-- `ISSUE <mnemonic>` (R81). -/
def issueCmd (i : Instr) : List HostOp := [.write 0x00 (encode i)]

/-- `WAITDONE` (R81). -/
def waitDone : List HostOp := [.pollDone]

/-- `CLROVR` (R81). -/
def clrOvr : List HostOp := [.write 0x01 0x10]

/-- `READOUT -> o` (R81). -/
def readOut : List HostOp := [.readOutLen]

/-- A source call as a script: `checksum`, `fix` and `encode` (R81). -/
def callString (i : Instr) (s : List Byte) : List HostOp := loadStr s ++ issueCmd i ++ waitDone ++ readOut

/-- A source call as a script: `isValid`, whose result is bit 3 of the `STATUS` byte read last (R81). -/
def callBool (i : Instr) (s : List Byte) : List HostOp := loadStr s ++ issueCmd i ++ waitDone ++ [.read 0x01]

end Sys2Proof.Machine
end

