-- ==== Sys2Proof/Machine/Step.lean ====
section
/-! DEFINITION. One step of the machine: one transaction of the host, one completion of the engine, or one reset (R15, R61, R250). -/

namespace Sys2Proof.Machine

/-- The engine's turn: while `BUSY = 1` it decodes and completes the command in flight (R60, R101); otherwise its step is not
enabled, and the turn passes (log entry 4). -/
def engineTurn (s : State) : Answer :=
  match commandInFlight s.blk with
  | none => .next s
  | some w =>
    match decode w with
    | .ok i => exec i s
    | .error _ => illegalCommand s

/-- One step: whoever is to move takes one turn. -/
def step (s : State) : Host.Outcome State Fault Refusal :=
  match mover s with
  | .engine => engineTurn (takeTurn s)
  | .host => hostTurn (takeTurn s)
  | .reset => .next (resetBlock (takeTurn s))

/-- `s` with the low `nbits` bits of `w` as the command in flight and the engine next to move: `LCMD` holds the word, `BUSY` and
`DONE` are as after issue, and the operand latches are left as they are (log entry 3). -/
def State.withFetchWord (s : State) (nbits w : Nat) : State :=
  { s with
    blk := { s.blk with lcmd := BitVec.ofNat 8 (w % 2 ^ nbits), busy := true, done := false }
    env := { s.env with turns := .engine :: s.env.turns } }

end Sys2Proof.Machine
end

