-- ==== Sys2Proof/Machine/Message.lean ====
section
/-! DEFINITION. What host software forms from the error registers: the required substring of the failure message (R214) and the
kind of the error (R201). -/

namespace Sys2Proof.Machine

/-- `dec(n)`: the decimal spelling without leading zeros (R214). -/
def decimal (n : Byte) : List Byte := (Nat.toDigits 10 n.toNat).map fun c => BitVec.ofNat 8 c.toNat

/-- The substring the failure message must contain, from `ERRCODE`, `ERRNL`, `ERRL0`, `ERRL1` (R214). For the other codes the spec
requires none (N4), and none is answered (log entry 14). -/
def requiredSubstring (b : Block) : Option (List Byte) :=
  match b.errcode.toNat, b.errnl.toNat with
  | 2, _ => some (ascii "type string")
  | 3, 1 => some (ascii "must be " ++ decimal b.errl0 ++ ascii " characters long")
  | 3, 2 =>
    some (ascii "must be either of [" ++ decimal b.errl0 ++ ascii "," ++ decimal b.errl1 ++ ascii "] characters long")
  | _, _ => none

/-- The kinds of the source's error taxonomy (R201). -/
inductive ErrorKind where
  /-- InputShapeError. -/
  | inputShape
  /-- InvalidBarcodeError. -/
  | invalidBarcode
  /-- No kind of the source's codec: the runtime error of an unsupported variant name. -/
  | unsupportedVariant
  deriving DecidableEq, Repr

/-- The kind of an error code, and none for a code no error has (R200, R201). -/
def errorKind (code : Byte) : Option ErrorKind :=
  match code.toNat with
  | 1 => some .unsupportedVariant
  | 2 | 3 | 4 => some .inputShape
  | 5 => some .invalidBarcode
  | _ => none

end Sys2Proof.Machine
end

