-- ==== Sys2Proof/Safety.lean ====
section
/-! DEFINITION. The terms in which claims are stated: what a completion leaves (R60), what an operand is, the weighted sum written
from the spec's own lists of weights, the invariant of the block, and who moves. None of them is used by the machine. -/

namespace Sys2Proof.Machine

/-- The operand latched for the command in flight is the string `str` (R33, R78). -/
def Latched (b : Block) (str : List Byte) : Prop :=
  b.linlen.toNat = str.length ∧ b.lin.toList.take str.length = str

/-- The characters of a digit sequence (R107). -/
def digitString (ds : List Digit) : List Byte := ds.map dchar

/-- A byte is an ASCII digit (R11). -/
def IsDigit (b : Byte) : Prop := 0x30 ≤ b.toNat ∧ b.toNat ≤ 0x39

/-- Byte `k` is the first of a string that is no digit (R106). -/
def FirstNonDigit (str : List Byte) (k : Nat) : Prop :=
  (∃ b, str[k]? = some b ∧ ¬ IsDigit b) ∧ ∀ j b, j < k → str[j]? = some b → IsDigit b

/-- The weights of a payload's positions, as R120 and R121 list them. -/
def weights : Variant → List Nat
  | .ean13 => [1, 3, 1, 3, 1, 3, 1, 3, 1, 3, 1, 3]
  | .ean8 => [3, 1, 3, 1, 3, 1, 3]

/-- The weighted sum of the payload at the start of a digit sequence, as a number (R122). -/
def weightedSum (v : Variant) (ds : List Digit) : Nat := (List.zipWith (fun d w => d.val * w) ds (weights v)).sum

/-- The check value of a weighted sum, as a number (R123). -/
def checkValue (ten : Bool) (sum : Nat) : Nat :=
  if sum % 10 = 0 then (if ten then 10 else 0) else 10 - sum % 10

/-- The string of a check value (R124): the two characters "10" for 10, otherwise one digit. -/
def checkString (k : Nat) : List Byte := if k = 10 then [0x31, 0x30] else [BitVec.ofNat 8 (0x30 + k)]

/-- The result string the host finds: the first `OUTLEN` bytes of `OUT` (R32). -/
def outString (b : Block) : List Byte := b.outBuf.toList.take b.outlen.toNat

/-- `t` is `s` after the completion step wrote the result record `r` (R60): every result register at its new value, everything else
unchanged. -/
structure Completed (s t : State) (r : Result) : Prop where
  busy : t.blk.busy = false
  done : t.blk.done = true
  err : t.blk.err = r.err
  valid : t.blk.valid = r.valid
  errcode : t.blk.errcode = r.errcode
  errnl : t.blk.errnl = r.errnl
  errl0 : t.blk.errl0 = r.errl0
  errl1 : t.blk.errl1 = r.errl1
  acc : t.blk.acc = r.acc
  chk : t.blk.chk = r.chk
  outlen : t.blk.outlen.toNat = r.out.length
  outBuf : ∀ i : Fin 32, t.blk.outBuf[i] = (r.out[i.val]?).getD 0x00
  ovr : t.blk.ovr = s.blk.ovr
  inlen : t.blk.inlen = s.blk.inlen
  inBuf : t.blk.inBuf = s.blk.inBuf
  lcmd : t.blk.lcmd = s.blk.lcmd
  linlen : t.blk.linlen = s.blk.linlen
  lin : t.blk.lin = s.blk.lin
  cfg : t.cfg = s.cfg
  env : t.env = s.env

/-- The result registers of two blocks are equal (the registers R59 says an issue keeps). -/
structure SameResults (a b : Block) : Prop where
  err : a.err = b.err
  valid : a.valid = b.valid
  errcode : a.errcode = b.errcode
  errnl : a.errnl = b.errnl
  errl0 : a.errl0 = b.errl0
  errl1 : a.errl1 = b.errl1
  acc : a.acc = b.acc
  chk : a.chk = b.chk
  outlen : a.outlen = b.outlen
  outBuf : a.outBuf = b.outBuf

/-- How a command that accepts the operand lengths `lens` ends when its operand is not admitted, `nl`, `l0` and `l1` being the
information a wrong length records (R103, R105, R106): the type error whatever the operand, the length error, and the error of the
first byte that is no digit. -/
structure FailsAdmission (run : ArgKind → State → Answer) (lens : List Nat) (nl l0 l1 : Byte) : Prop where
  nonText : ∀ s, ∃ t, run .nonText s = .next t ∧ Completed s t { err := true, errcode := 2 }
  length : ∀ s, s.blk.linlen.toNat ∉ lens → ∃ t, run .text s = .next t ∧
    Completed s t { err := true, errcode := 3, errnl := nl, errl0 := l0, errl1 := l1 }
  nonDigit : ∀ s str k, Latched s.blk str → str.length ∈ lens → FirstNonDigit str k → ∃ t, run .text s = .next t ∧
    Completed s t { err := true, errcode := 4, errl0 := BitVec.ofNat 8 k }

/-- `CHECKSUM` of a variant. -/
def checksumOf : Variant → ArgKind → Instr
  | .ean13, k => .checksumEan13 k
  | .ean8, k => .checksumEan8 k

/-- `ISVALID` of a variant. -/
def isvalidOf : Variant → ArgKind → Instr
  | .ean13, k => .isvalidEan13 k
  | .ean8, k => .isvalidEan8 k

/-- `FIX` of a variant. -/
def fixOf : Variant → ArgKind → Instr
  | .ean13, k => .fixEan13 k
  | .ean8, k => .fixEan8 k

/-- `ENCODE` of a variant. -/
def encodeOf : Variant → Bool → ArgKind → Instr
  | .ean13, nv, k => .encodeEan13 nv k
  | .ean8, nv, k => .encodeEan8 nv k

/-- The operand kind a command states. -/
def argKind : Instr → ArgKind
  | .checksumEan13 k | .isvalidEan13 k | .fixEan13 k | .encodeEan13 _ k => k
  | .checksumEan8 k | .isvalidEan8 k | .fixEan8 k | .encodeEan8 _ k => k

/-- The variant of a command. -/
def variantOf : Instr → Variant
  | .checksumEan13 _ | .isvalidEan13 _ | .fixEan13 _ | .encodeEan13 _ _ => .ean13
  | .checksumEan8 _ | .isvalidEan8 _ | .fixEan8 _ | .encodeEan8 _ _ => .ean8

/-- The operand lengths a command accepts, as R104 lists them. -/
def acceptedLens : Instr → List Nat
  | .checksumEan13 _ => [12]
  | .isvalidEan13 _ => [13]
  | .fixEan13 _ => [12, 13]
  | .encodeEan13 _ _ => [13]
  | .checksumEan8 _ => [7]
  | .isvalidEan8 _ => [8]
  | .fixEan8 _ => [7, 8]
  | .encodeEan8 _ _ => [8]

/-- The command is an `ENCODE` with `NV = 0`, the only one that can end in `INVALID_BARCODE` (R200). -/
def validates : Instr → Bool
  | .encodeEan13 nv _ | .encodeEan8 nv _ => !nv
  | _ => false

/-- The full barcode's last digit is the check value of its payload (R126). -/
def CheckDigitRight (ten : Bool) (v : Variant) (ds : List Digit) : Prop :=
  ∃ d : Digit, ds[payloadLen v]? = some d ∧ d.val = checkValue ten (weightedSum v ds)

/-- A command word is illegal, by its bits (R77, R101). -/
def IllegalWord (w : Byte) : Prop :=
  2 ≤ w.toNat / 4 % 4 ∨ w.toNat / 64 ≠ 0 ∨ (w.toNat / 16 % 2 = 1 ∧ w.toNat % 4 ≠ 3)

/-- The engine takes the next step and has a command to complete. -/
def EngineMoves (s : State) : Prop :=
  s.blk.busy = true ∧ ((∃ ts, s.env.turns = .engine :: ts) ∨ s.env.turns = [])

/-- The host takes the next step. -/
def HostMoves (s : State) : Prop :=
  (∃ ts, s.env.turns = .host :: ts) ∨ (s.env.turns = [] ∧ s.blk.busy = false)

/-- The host takes the next `n` steps, unless it issues a command in one of them: as many of them as are listed are the host's, and
either all are listed or the block is idle when the list is used up (log entry 1). -/
def HostHasTurns (n : Nat) (s : State) : Prop :=
  (∀ t ∈ s.env.turns.take n, t = .host) ∧ (n ≤ s.env.turns.length ∨ s.blk.busy = false)

/-- The reset input is asserted in the next step. -/
def ResetMoves (s : State) : Prop := ∃ ts, s.env.turns = .reset :: ts

/-- The host does nothing outside the spec: no access is wider than one byte (R54, I11). -/
def HostInSpec (s : State) : Prop := ∀ off n, HostOp.wide off n ∉ s.env.ops

/-- A safe step: the machine goes on. -/
def Safe (o : Answer) : Prop := ∃ t, o = .next t

/-- What holds of the block's registers in every reachable state, from the ranges and meanings of R22 to R32 and R202. -/
structure BlockInv (ten : Bool) (b : Block) : Prop where
  /-- "`BUSY` and `DONE` are never both 1" (R22). -/
  busy_done : ¬ (b.busy = true ∧ b.done = true)
  /-- Codes 6 to 255 are never produced (R23). -/
  errcode_le : b.errcode.toNat ≤ 5
  /-- `ERR` is 1 when the last command ended in an error (R22, R23). -/
  err_iff : b.err = true ↔ b.errcode ≠ 0
  /-- `ERRNL` is 1 or 2 for `LENGTH_MISMATCH`, else 0 (R24). -/
  errnl_iff : (b.errcode = 3 → b.errnl = 1 ∨ b.errnl = 2) ∧ (b.errcode ≠ 3 → b.errnl = 0)
  /-- `ERRL0` is an accepted length or the index of a byte of an admitted length, else 0 (R25). -/
  errl0_range : (b.errcode ≠ 3 → b.errcode ≠ 4 → b.errl0 = 0) ∧ b.errl0.toNat ≤ 13
  /-- `ERRL1` is the larger accepted length when there are two, else 0 (R26). -/
  errl1_range : (b.errnl ≠ 2 → b.errl1 = 0) ∧ (b.errnl = 2 → b.errl1.toNat = b.errl0.toNat + 1)
  /-- `ACC` ranges from 0 to 216 (R29). -/
  acc_le : b.acc.toNat ≤ 216
  /-- `CHK` ranges from 0 to 9, or is 10 only when `P_CHECK_TEN` (R30). -/
  chk_le : b.chk.toNat ≤ 9 ∨ (b.chk = 10 ∧ ten = true)
  /-- Errors 1 to 4 compute no checksum (R202). -/
  no_sum : b.err = true → b.errcode ≠ 5 → b.acc = 0 ∧ b.chk = 0
  /-- `OUTLEN` is at most 26 (R31, R159). -/
  outlen_le : b.outlen.toNat ≤ 26
  /-- `OUT[i]` is 0x00 from `OUTLEN` on (R32). -/
  out_zero : ∀ i : Fin 32, b.outlen.toNat ≤ i.val → b.outBuf[i] = 0x00
  /-- An error leaves no result string and no `VALID` (R205). -/
  err_empty : b.err = true → b.outlen = 0 ∧ b.valid = false
  /-- `VALID` is 1 only after an `ISVALID`, which has no result string (R22, R126). -/
  valid_empty : b.valid = true → b.outlen = 0

/-- The invariant of the machine. -/
def StateInv (s : State) : Prop := BlockInv s.cfg.checkTen s.blk

end Sys2Proof.Machine
end

