-- ==== Sys2Proof/Certificates/Slice0/Obligations.lean ====
section
/-! DEFINITION. The statements for the provers. -/

open Sys2Proof Sys2Proof.Machine

/-- Every legal word of R76, bit by bit as its pattern is written there, decodes to the command it stands for. -/
def Obligations.TableWordsDecode : Prop :=
  decode 0b00000000#8 = .ok (.checksumEan13 .text) ∧ decode 0b00100000#8 = .ok (.checksumEan13 .nonText) ∧
  decode 0b00000001#8 = .ok (.isvalidEan13 .text) ∧ decode 0b00100001#8 = .ok (.isvalidEan13 .nonText) ∧
  decode 0b00000010#8 = .ok (.fixEan13 .text) ∧ decode 0b00100010#8 = .ok (.fixEan13 .nonText) ∧
  decode 0b00000011#8 = .ok (.encodeEan13 false .text) ∧ decode 0b00010011#8 = .ok (.encodeEan13 true .text) ∧
  decode 0b00100011#8 = .ok (.encodeEan13 false .nonText) ∧ decode 0b00110011#8 = .ok (.encodeEan13 true .nonText) ∧
  decode 0b00000100#8 = .ok (.checksumEan8 .text) ∧ decode 0b00100100#8 = .ok (.checksumEan8 .nonText) ∧
  decode 0b00000101#8 = .ok (.isvalidEan8 .text) ∧ decode 0b00100101#8 = .ok (.isvalidEan8 .nonText) ∧
  decode 0b00000110#8 = .ok (.fixEan8 .text) ∧ decode 0b00100110#8 = .ok (.fixEan8 .nonText) ∧
  decode 0b00000111#8 = .ok (.encodeEan8 false .text) ∧ decode 0b00010111#8 = .ok (.encodeEan8 true .text) ∧
  decode 0b00100111#8 = .ok (.encodeEan8 false .nonText) ∧ decode 0b00110111#8 = .ok (.encodeEan8 true .nonText)

/-- Decoding and encoding agree in both directions, for every command with every operand field and for every word (R70 to R76). -/
def Obligations.DecodeAndEncodeAgree : Prop :=
  (∀ i : Instr, i.wf = true ∧ decode (encode i) = .ok i) ∧ ∀ (w : Byte) (i : Instr), decode w = .ok i → encode i = w

/-- The rows of R76 as match and mask: a word decodes exactly when it matches a row, and no word matches two. -/
def Obligations.LegalWordMatchesOneRow : Prop :=
  ∀ w : Byte,
    ((∃ i, decode w = .ok i) ↔
      ((([(0x00, 0xDF), (0x01, 0xDF), (0x02, 0xDF), (0x03, 0xCF), (0x04, 0xDF), (0x05, 0xDF), (0x06, 0xDF), (0x07, 0xCF)] :
        List (Byte × Byte)).filter fun row => w &&& row.2 == row.1).length = 1)) ∧
    (([(0x00, 0xDF), (0x01, 0xDF), (0x02, 0xDF), (0x03, 0xCF), (0x04, 0xDF), (0x05, 0xDF), (0x06, 0xDF), (0x07, 0xCF)] :
      List (Byte × Byte)).filter fun row => w &&& row.2 == row.1).length ≤ 1

/-- R77: a word is rejected exactly when `VAR` is 2 or 3, or `RSV` is not 0, or `NV = 1` with `OP` not `ENCODE`; these are 236 of
the 256 words. -/
def Obligations.IllegalWordsRejected : Prop :=
  (∀ w : Byte, (∃ r, decode w = .error r) ↔ IllegalWord w) ∧
  ((List.range 256).filter fun n => (decodeTableWord 8 n).isNone).length = 236

/-- When the engine moves and the command word decodes, the step is `exec` of that command, with the turn struck off. The turns are
the model's own (log entry 1). -/
def Obligations.StepRunsDecodedCommand : Prop :=
  ∀ (s : State) (i : Instr), EngineMoves s → decode s.blk.lcmd = .ok i →
    step s = exec i { s with env := { s.env with turns := s.env.turns.tail } }

/-- The interface's fetch: a table word placed as the command in flight is what the very next step runs (log entry 3). -/
def Obligations.FetchWordRunsNext : Prop :=
  ∀ (s : State) (w : Nat) (i : Instr), decodeTableWord 8 w = some i →
    step (s.withFetchWord 8 w) = exec i { s with blk := { s.blk with lcmd := BitVec.ofNat 8 w, busy := true, done := false } }

/-- R101: the completion of an illegal word ends in `ILLEGAL_CMD`, whatever the operand and `ARGK`. -/
def Obligations.IllegalWordEndsInIllegalCmd : Prop :=
  ∀ s : State, EngineMoves s → IllegalWord s.blk.lcmd →
    ∃ t, step s = .next t ∧ Completed s { t with env := s.env } { err := true, errcode := 1 }

/-- R60, R213: while `BUSY = 0` the engine has no step, and a block that is idle holds all its state, in every run without a
transaction and a reset. That the void turn of an engine without a command, and of a host with nothing to do, passes is the model's
choice (log entry 4), as are the turns themselves (log entry 1). -/
def Obligations.IdleBlockHoldsItsState : Prop :=
  (∀ (s : State) (ts : List Turn), s.blk.busy = false → s.env.turns = .engine :: ts →
    step s = .next { s with env := { s.env with turns := ts } }) ∧
  (∀ s : State, HostMoves s → s.env.ops = [] → step s = .next { s with env := { s.env with turns := s.env.turns.tail } }) ∧
  ∀ (k : Nat) (s : State), s.blk.busy = false → s.env.ops = [] → .reset ∉ s.env.turns →
    Sys2Proof.core.run k s = .next { s with env := { s.env with turns := s.env.turns.drop k } }

/-- R38: every register and latch after reset. -/
def Obligations.ResetLeavesEveryRegisterZero : Prop :=
  State.reset.blk.lcmd = 0x00 ∧ readReg 0x00 State.reset.blk = 0x00 ∧
  State.reset.blk.busy = false ∧ State.reset.blk.done = false ∧ State.reset.blk.err = false ∧
  State.reset.blk.valid = false ∧ State.reset.blk.ovr = false ∧ statusByte State.reset.blk = 0x00 ∧
  State.reset.blk.errcode = 0x00 ∧ State.reset.blk.errnl = 0x00 ∧ State.reset.blk.errl0 = 0x00 ∧ State.reset.blk.errl1 = 0x00 ∧
  State.reset.blk.inlen = 0x00 ∧ State.reset.blk.linlen = 0x00 ∧
  (∀ i : Fin 16, State.reset.blk.inBuf[i] = 0x00 ∧ State.reset.blk.lin[i] = 0x00) ∧
  State.reset.blk.acc = 0x00 ∧ State.reset.blk.chk = 0x00 ∧ State.reset.blk.outlen = 0x00 ∧
  ∀ i : Fin 32, State.reset.blk.outBuf[i] = 0x00

/-- R250, R251: the reset input puts the block into its reset state in one step, a command in flight included, and does not change
the constants. That the host goes on with what it was doing is the model's choice (log entry 10). -/
def Obligations.ResetInputResetsTheBlock : Prop :=
  ∀ (s : State) (ts : List Turn), s.env.turns = .reset :: ts →
    ∃ t, step s = .next t ∧ t.blk = State.reset.blk ∧ t.cfg = s.cfg ∧ t.env = { s.env with turns := ts }

/-- A host's turn is one transaction: a read puts the register's value on its list of reads, a write goes to the register window, and
the host goes on with the rest. The lists are the model's own (log entries 1, 2). -/
def Obligations.HostTurnIsOneTransaction : Prop :=
  (∀ (s : State) (off : Offset) (rest : List HostOp), HostMoves s → s.env.ops = .read off :: rest →
    step s = .next { s with env := { turns := s.env.turns.tail, ops := rest, reads := s.env.reads ++ [(off, readReg off s.blk)] } }) ∧
  ∀ (s : State) (off : Offset) (v : Byte) (rest : List HostOp), HostMoves s → s.env.ops = .write off v :: rest →
    step s = .next
      { s with blk := writeReg off v s.blk, env := { turns := s.env.turns.tail, ops := rest, reads := s.env.reads } }

/-- R55: a host read returns the register's current value, by the register map, and changes nothing in the block, whatever `BUSY` is.
The reads are the single one, the poll of `STATUS` and the read of `OUTLEN` that begins `READOUT`. -/
def Obligations.HostReadReturnsTheRegister : Prop :=
  (∀ (s : State) (op : HostOp) (off : Offset) (rest : List HostOp), HostMoves s → s.env.ops = op :: rest →
    (op = .read off ∨ (op = .pollDone ∧ off = 0x01) ∨ (op = .readOutLen ∧ off = 0x09)) →
    ∃ t, step s = .next t ∧ t.env.reads = s.env.reads ++ [(off, readReg off s.blk)] ∧ t.blk = s.blk ∧ t.cfg = s.cfg) ∧
  ∀ b : Block,
    readReg 0x00 b = b.lcmd ∧
    ((readReg 0x01 b).getLsbD 0 = b.busy ∧ (readReg 0x01 b).getLsbD 1 = b.done ∧ (readReg 0x01 b).getLsbD 2 = b.err ∧
      (readReg 0x01 b).getLsbD 3 = b.valid ∧ (readReg 0x01 b).getLsbD 4 = b.ovr ∧ (readReg 0x01 b).toNat / 32 = 0) ∧
    readReg 0x02 b = b.errcode ∧ readReg 0x03 b = b.errnl ∧ readReg 0x04 b = b.errl0 ∧ readReg 0x05 b = b.errl1 ∧
    readReg 0x06 b = b.inlen ∧ readReg 0x07 b = b.acc ∧ readReg 0x08 b = b.chk ∧ readReg 0x09 b = b.outlen ∧
    (∀ off : Offset, 0x0A ≤ off.toNat → off.toNat ≤ 0x0F → readReg off b = 0x00) ∧
    (∀ i : Fin 16, readReg (BitVec.ofNat 6 (0x10 + i.val)) b = b.inBuf[i]) ∧
    ∀ i : Fin 32, readReg (BitVec.ofNat 6 (0x20 + i.val)) b = b.outBuf[i]

/-- R56: a host write to `INLEN` or `IN[i]` gives the register its value, whatever `BUSY` is, and changes nothing else. -/
def Obligations.OperandWriteTakesTheByte : Prop :=
  (∀ (s : State) (v : Byte) (rest : List HostOp), HostMoves s → s.env.ops = .write 0x06 v :: rest →
    ∃ t, step s = .next t ∧ t.blk = { s.blk with inlen := v } ∧ t.cfg = s.cfg) ∧
  ∀ (s : State) (i : Fin 16) (v : Byte) (rest : List HostOp), HostMoves s →
    s.env.ops = .write (BitVec.ofNat 6 (0x10 + i.val)) v :: rest →
    ∃ t, step s = .next t ∧ t.blk.inBuf[i] = v ∧ (∀ j : Fin 16, j ≠ i → t.blk.inBuf[j] = s.blk.inBuf[j]) ∧
      t.blk = { s.blk with inBuf := t.blk.inBuf } ∧ t.cfg = s.cfg

/-- R57: a host write to a read-only register or a reserved offset changes no state of the block. -/
def Obligations.ReadOnlyWriteIsIgnored : Prop :=
  ∀ (s : State) (off : Offset) (v : Byte) (rest : List HostOp), HostMoves s → s.env.ops = .write off v :: rest →
    ((0x02 ≤ off.toNat ∧ off.toNat ≤ 0x05) ∨ (0x07 ≤ off.toNat ∧ off.toNat ≤ 0x0F) ∨ 0x20 ≤ off.toNat) →
    ∃ t, step s = .next t ∧ t.blk = s.blk ∧ t.cfg = s.cfg

/-- R58: a host write to `STATUS` clears `OVR` when its bit 4 is 1, and does nothing else. -/
def Obligations.StatusWriteClearsOvrOnly : Prop :=
  ∀ (s : State) (v : Byte) (rest : List HostOp), HostMoves s → s.env.ops = .write 0x01 v :: rest →
    ∃ t, step s = .next t ∧ t.cfg = s.cfg ∧ t.blk = { s.blk with ovr := if v.toNat / 16 % 2 = 1 then false else s.blk.ovr }

/-- R59: a host write to `CMD` while busy is dropped and sets `OVR`; while idle it latches the word and the operand, sets `BUSY` and
clears `DONE`. Every value is accepted, and no result register changes. -/
def Obligations.CmdWriteIssuesOrIsDropped : Prop :=
  ∀ (s : State) (v : Byte) (rest : List HostOp), HostMoves s → s.env.ops = .write 0x00 v :: rest →
    ∃ t, step s = .next t ∧ t.cfg = s.cfg ∧
      (s.blk.busy = true → t.blk = { s.blk with ovr := true }) ∧
      (s.blk.busy = false →
        t.blk = { s.blk with lcmd := v, linlen := s.blk.inlen, lin := s.blk.inBuf, busy := true, done := false })

/-- R56, R57: at the register window, a host write to any offset but `CMD` and `STATUS` is seen at that offset only, and there only
when the register is writable. -/
def Obligations.WindowWriteTouchesOneOffset : Prop :=
  ∀ (b : Block) (off off' : Offset) (v : Byte), 0x02 ≤ off.toNat →
    (off' ≠ off → readReg off' (writeReg off v b) = readReg off' b) ∧
    readReg off (writeReg off v b) =
      if off = 0x06 ∨ (0x10 ≤ off.toNat ∧ off.toNat < 0x20) then v else readReg off b

/-- R54, I11: an access wider than one byte is outside the spec; the model refuses it by name (log entry 8). -/
def Obligations.WideAccessIsRefused : Prop :=
  ∀ (s : State) (off : Offset) (extra : Nat) (rest : List HostOp), HostMoves s → s.env.ops = .wide off extra :: rest →
    step s = .refused .wideAccess

/-- R60: what a completion writes is computed from `LCMD`, `LINLEN`, `LIN` and the constants alone. -/
def Obligations.CompletionReadsOnlyTheLatches : Prop :=
  ∀ s s' t t' : State, EngineMoves s → EngineMoves s' → s.blk.lcmd = s'.blk.lcmd → s.blk.linlen = s'.blk.linlen →
    s.blk.lin = s'.blk.lin → s.cfg = s'.cfg → step s = .next t → step s' = .next t' → SameResults t.blk t'.blk

/-- R204: a command reports exactly one error, the first that applies in the order 1, 2, 3, 4 (at the lowest index), 5. -/
def Obligations.FirstApplicableErrorIsReported : Prop :=
  ∀ s : State, EngineMoves s → ∃ t, step s = .next t ∧
    (IllegalWord s.blk.lcmd → t.blk.errcode = 1) ∧
    ∀ i : Instr, decode s.blk.lcmd = .ok i →
      (argKind i = .nonText → t.blk.errcode = 2) ∧
      (argKind i = .text → s.blk.linlen.toNat ∉ acceptedLens i → t.blk.errcode = 3) ∧
      (∀ str k, argKind i = .text → Latched s.blk str → str.length ∈ acceptedLens i → FirstNonDigit str k →
        t.blk.errcode = 4 ∧ t.blk.errl0.toNat = k) ∧
      ∀ ds : List Digit, argKind i = .text → Latched s.blk (digitString ds) → ds.length ∈ acceptedLens i →
        (validates i = true → ¬ CheckDigitRight s.cfg.checkTen (variantOf i) ds → t.blk.errcode = 5) ∧
        (validates i = false ∨ CheckDigitRight s.cfg.checkTen (variantOf i) ds → t.blk.errcode = 0)

/-- R125, both variants (`CHECKSUM.EAN13`, `CHECKSUM.EAN8`): on a digit string of payload length, `ACC` is the weighted sum, `CHK` its
check value and the result string the check string; everything else is 0 or unchanged. Otherwise the errors of R103, R105, R106. -/
def Obligations.ChecksumCompletes : Prop :=
  FailsAdmission (fun k => exec (.checksumEan13 k)) [12] 1 12 0 ∧
  FailsAdmission (fun k => exec (.checksumEan8 k)) [7] 1 7 0 ∧
  ∀ (v : Variant) (s : State) (ds : List Digit), Latched s.blk (digitString ds) → ds.length = payloadLen v →
    ∃ t, exec (checksumOf v .text) s = .next t ∧
      t.blk.acc.toNat = weightedSum v ds ∧ t.blk.chk.toNat = checkValue s.cfg.checkTen (weightedSum v ds) ∧
      Completed s t { acc := t.blk.acc, chk := t.blk.chk, out := checkString (checkValue s.cfg.checkTen (weightedSum v ds)) }

/-- R126, both variants (`ISVALID.EAN13`, `ISVALID.EAN8`): on a digit string of full length, `VALID` says whether the last digit is the
check value of the payload, a mismatch being no error; there is no result string. -/
def Obligations.IsvalidCompletes : Prop :=
  FailsAdmission (fun k => exec (.isvalidEan13 k)) [13] 1 13 0 ∧
  FailsAdmission (fun k => exec (.isvalidEan8 k)) [8] 1 8 0 ∧
  ∀ (v : Variant) (s : State) (ds : List Digit), Latched s.blk (digitString ds) → ds.length = fullLen v →
    ∃ t, exec (isvalidOf v .text) s = .next t ∧
      t.blk.acc.toNat = weightedSum v ds ∧ t.blk.chk.toNat = checkValue s.cfg.checkTen (weightedSum v ds) ∧
      (t.blk.valid = true ↔ CheckDigitRight s.cfg.checkTen v ds) ∧
      Completed s t { valid := t.blk.valid, acc := t.blk.acc, chk := t.blk.chk, out := [] }

/-- R127, both variants (`FIX.EAN13`, `FIX.EAN8`): on a digit string of payload or full length, the result string is the payload's
characters and the check string, whatever the operand's own check digit. -/
def Obligations.FixCompletes : Prop :=
  FailsAdmission (fun k => exec (.fixEan13 k)) [12, 13] 2 12 13 ∧
  FailsAdmission (fun k => exec (.fixEan8 k)) [7, 8] 2 7 8 ∧
  ∀ (v : Variant) (s : State) (ds : List Digit), Latched s.blk (digitString ds) →
    ds.length = payloadLen v ∨ ds.length = fullLen v →
    ∃ t, exec (fixOf v .text) s = .next t ∧
      t.blk.acc.toNat = weightedSum v ds ∧ t.blk.chk.toNat = checkValue s.cfg.checkTen (weightedSum v ds) ∧
      Completed s t
        { acc := t.blk.acc, chk := t.blk.chk
          out := (digitString ds).take (payloadLen v) ++ checkString (checkValue s.cfg.checkTen (weightedSum v ds)) }

/-- R161 for `ENCODE.EAN13`: with `NV = 1` every digit string of length 13 is encoded and no checksum is computed; with `NV = 0` it is
encoded when its check digit is right, and otherwise ends in `INVALID_BARCODE` with its sum and check value. The result string is the
symbol of each position, left to right (R158). -/
def Obligations.EncodeEan13Completes : Prop :=
  (∀ nv, FailsAdmission (fun k => exec (.encodeEan13 nv k)) [13] 1 13 0) ∧
  ∀ (s : State) (d : Fin 13 → Digit), Latched s.blk (digitString (List.ofFn d)) →
    (∃ t, exec (.encodeEan13 true .text) s = .next t ∧
      Completed s t { out := (List.finRange 13).flatMap fun i => (s.cfg.font13.symbolAt (d 0) i (d i)).bytes }) ∧
    ∃ t, exec (.encodeEan13 false .text) s = .next t ∧
      t.blk.acc.toNat = weightedSum .ean13 (List.ofFn d) ∧
      t.blk.chk.toNat = checkValue s.cfg.checkTen (weightedSum .ean13 (List.ofFn d)) ∧
      (CheckDigitRight s.cfg.checkTen .ean13 (List.ofFn d) →
        Completed s t
          { acc := t.blk.acc, chk := t.blk.chk
            out := (List.finRange 13).flatMap fun i => (s.cfg.font13.symbolAt (d 0) i (d i)).bytes }) ∧
      (¬ CheckDigitRight s.cfg.checkTen .ean13 (List.ofFn d) →
        Completed s t { err := true, errcode := 5, acc := t.blk.acc, chk := t.blk.chk })

/-- R161 for `ENCODE.EAN8`, as for `ENCODE.EAN13` with length 8 and the EAN-8 font. -/
def Obligations.EncodeEan8Completes : Prop :=
  (∀ nv, FailsAdmission (fun k => exec (.encodeEan8 nv k)) [8] 1 8 0) ∧
  ∀ (s : State) (d : Fin 8 → Digit), Latched s.blk (digitString (List.ofFn d)) →
    (∃ t, exec (.encodeEan8 true .text) s = .next t ∧
      Completed s t { out := (List.finRange 8).flatMap fun i => (s.cfg.font8.symbolAt (d 0) i (d i)).bytes }) ∧
    ∃ t, exec (.encodeEan8 false .text) s = .next t ∧
      t.blk.acc.toNat = weightedSum .ean8 (List.ofFn d) ∧
      t.blk.chk.toNat = checkValue s.cfg.checkTen (weightedSum .ean8 (List.ofFn d)) ∧
      (CheckDigitRight s.cfg.checkTen .ean8 (List.ofFn d) →
        Completed s t
          { acc := t.blk.acc, chk := t.blk.chk
            out := (List.finRange 8).flatMap fun i => (s.cfg.font8.symbolAt (d 0) i (d i)).bytes }) ∧
      (¬ CheckDigitRight s.cfg.checkTen .ean8 (List.ofFn d) →
        Completed s t { err := true, errcode := 5, acc := t.blk.acc, chk := t.blk.chk })

/-- R122: the accumulator holds the exact weighted sum of the payload; it is at most 216 for EAN-13 and 135 for EAN-8, so it never
wraps, and both bounds are reached. -/
def Obligations.AccumulatorIsExact : Prop :=
  (∀ (v : Variant) (ds : List Digit), ds.length = payloadLen v → (accum v ds).toNat = weightedSum v ds) ∧
  (∀ ds : List Digit, weightedSum .ean13 ds ≤ 216 ∧ weightedSum .ean8 ds ≤ 135) ∧
  (accum .ean13 (List.replicate 12 9)).toNat = 216 ∧ (accum .ean8 (List.replicate 7 9)).toNat = 135

/-- R123: accumulator and check value add up to a multiple of 10, and with `P_CHECK_TEN = false` the check value is one digit, with
`true` it is 1 to 10. -/
def Obligations.CheckValueCompletesTheSum : Prop :=
  ∀ acc : Byte, (∀ ten, (acc.toNat + (check ten acc).toNat) % 10 = 0) ∧ (check false acc).toNat ≤ 9 ∧
    1 ≤ (check true acc).toNat ∧ (check true acc).toNat ≤ 10

/-- R129, first and second law, with `P_CHECK_TEN = false`: `CHECKSUM` returns one digit; with it the payload is a valid barcode; with
any other last digit it is not. -/
def Obligations.ChecksumThenIsvalid : Prop :=
  ∀ (v : Variant) (s : State) (p : List Digit), s.cfg.checkTen = false → Latched s.blk (digitString p) → p.length = payloadLen v →
    ∃ (t : State) (c : Digit), exec (checksumOf v .text) s = .next t ∧ outString t.blk = [dchar c] ∧
      ∀ (s' : State) (x : Digit), s'.cfg.checkTen = false → Latched s'.blk (digitString p ++ [dchar x]) →
        ∃ t', exec (isvalidOf v .text) s' = .next t' ∧ (t'.blk.valid = true ↔ x = c)

/-- R129, the laws of `FIX`, in both settings: it returns a valid barcode unchanged, it repairs a barcode that differs from a valid one
only in its last digit, and on a full barcode it gives the same for every last digit. -/
def Obligations.FixRepairsTheLastDigit : Prop :=
  (∀ (v : Variant) (s sf t : State) (p : List Digit) (c x : Digit), p.length = payloadLen v → sf.cfg = s.cfg →
    Latched s.blk (digitString p ++ [dchar c]) → exec (isvalidOf v .text) s = .next t → t.blk.valid = true →
    Latched sf.blk (digitString p ++ [dchar x]) →
    ∃ t', exec (fixOf v .text) sf = .next t' ∧ outString t'.blk = digitString p ++ [dchar c]) ∧
  ∀ (v : Variant) (s s' : State) (p : List Digit) (x : Digit), p.length = payloadLen v → s'.cfg = s.cfg →
    Latched s.blk (digitString p) → Latched s'.blk (digitString p ++ [dchar x]) →
    ∃ t t', exec (fixOf v .text) s = .next t ∧ exec (fixOf v .text) s' = .next t' ∧ SameResults t.blk t'.blk

/-- R129 with `P_CHECK_TEN = true`, for the payloads whose sum is a multiple of 10: `CHECKSUM` returns "10", no barcode with the payload
is valid, `ISVALID` fails its length check on the payload with "10", and `FIX`, on the payload and on every full barcode with it,
returns one byte more than the full length, ending in "10". By R161 a validating `ENCODE` of such a barcode ends in
`INVALID_BARCODE`. -/
def Obligations.CheckTenAtMultiplesOfTen : Prop :=
  ∀ (v : Variant) (s : State) (p : List Digit), s.cfg.checkTen = true → p.length = payloadLen v → weightedSum v p % 10 = 0 →
    (Latched s.blk (digitString p) →
      (∃ t, exec (checksumOf v .text) s = .next t ∧ outString t.blk = ascii "10") ∧
      ∃ t, exec (fixOf v .text) s = .next t ∧ outString t.blk = digitString p ++ ascii "10" ∧
        t.blk.outlen.toNat = fullLen v + 1) ∧
    (∀ x : Digit, Latched s.blk (digitString p ++ [dchar x]) →
      (∃ t, exec (isvalidOf v .text) s = .next t ∧ t.blk.valid = false ∧ t.blk.err = false) ∧
      (∃ t, exec (fixOf v .text) s = .next t ∧ outString t.blk = digitString p ++ ascii "10" ∧
        t.blk.outlen.toNat = fullLen v + 1) ∧
      ∃ t, exec (encodeOf v false .text) s = .next t ∧ t.blk.errcode = 5) ∧
    (Latched s.blk (digitString p ++ ascii "10") → ∃ t, exec (isvalidOf v .text) s = .next t ∧ t.blk.errcode = 3)

/-- R159: an encoded string has between `L` and `2L` bytes; with the default fonts it has 15 for EAN-13 and 11 for EAN-8, whatever the
digits. -/
def Obligations.EncodedLength : Prop :=
  ∀ (v : Variant) (s : State) (ds : List Digit), Latched s.blk (digitString ds) → ds.length = fullLen v →
    ∃ t, exec (encodeOf v true .text) s = .next t ∧ fullLen v ≤ t.blk.outlen.toNat ∧ t.blk.outlen.toNat ≤ 2 * fullLen v ∧
      (v = .ean13 → s.cfg.font13 = Config.default.font13 → t.blk.outlen.toNat = 15) ∧
      (v = .ean8 → s.cfg.font8 = Config.default.font8 → t.blk.outlen.toNat = 11)

/-- R157: under every well-formed configuration, with either setting of `NV` and of `P_CHECK_TEN`, the two reference barcodes encode to
the source's strings. What well formed is beyond R9's own words is the model's reading (log entry 9). -/
def Obligations.ReferenceVectorsEncode : Prop :=
  ∀ (s : State) (nv : Bool), s.cfg.wf = true →
    (Latched s.blk (ascii "5056501287155") →
      ∃ t, exec (.encodeEan13 nv .text) s = .next t ∧ outString t.blk = ascii "5APQFAL*cihbff+") ∧
    (Latched s.blk (ascii "47195127") →
      ∃ t, exec (.encodeEan8 nv .text) s = .next t ∧ outString t.blk = ascii ":EHBJ*fbch+")

/-- R160: the encoded string is what the packing stage makes: the symbol of position `i` stands at the sum of the lengths of the
symbols before it. -/
def Obligations.SymbolsArePacked : Prop :=
  ∀ (tables len : Nat) (F : Font tables len) (f : Digit) (ds : List Digit), ds.head? = some f → ds.length = len →
    ∀ (i : Fin len) (d : Digit), ds[i.val]? = some d →
      ((fontString F ds).drop
        (((List.finRange len).take i.val).map fun j => (F.symbolAt f j (ds.getD j.val 0)).bytes.length).sum).take
          (F.symbolAt f i d).bytes.length = (F.symbolAt f i d).bytes

/-- R162: with the default constants, different first digits select different EAN-13 rows and the same EAN-8 row, as the four encodings
show. The entries no vector fixes are presumed (log entry 7). -/
def Obligations.DefaultRowDependence : Prop :=
  (∀ f g : Digit, f ≠ g → Config.default.font13.ord[f] ≠ Config.default.font13.ord[g]) ∧
  (∀ f : Digit, Config.default.font8.ord[f].toList = [0, 1, 1, 1, 2, 3, 3, 4]) ∧
  fontenc Config.default .ean13 (List.replicate 13 0) = ascii "0AAAAAA*aaaaaa+" ∧
  fontenc Config.default .ean13 [5, 0, 0, 0, 0, 0, 0, 0, 0, 0, 0, 0, 5] = ascii "5AKKAAK*aaaaaf+" ∧
  fontenc Config.default .ean8 (List.replicate 8 0) = ascii ":AAAA*aaaa+" ∧
  fontenc Config.default .ean8 [5, 5, 1, 2, 3, 4, 5, 7] = ascii ":FFBC*defh+"

/-- Nothing stops the machine: no access (R55 to R59, R210), no completion, an error's included (R60, R205), and no reset (R250). Every
step answers a next state while the host stays within the spec, and a step leaves the host within it. That a wider access is refused
(log entry 8), that no step faults (log entry 12) and that void turns pass (log entry 4) is the model's reading and choice. -/
def Obligations.EveryStepGoesOn : Prop :=
  ∀ s : State, HostInSpec s → Safe (step s) ∧ ∀ t, step s = .next t → HostInSpec t

/-- The ranges and meanings of the registers (R22 to R32, R202) are an invariant of every step, from every state that has them. -/
def Obligations.StepKeepsTheInvariant : Prop :=
  ∀ s t : State, StateInv s → step s = .next t → StateInv t

/-- The reset state has the invariant, and the default constants are well formed (R9, R38). -/
def Obligations.ResetHasTheInvariant : Prop := StateInv State.reset ∧ State.reset.cfg.wf = true

/-- R39: no command, no host access and no reset changes the constants of the instance. -/
def Obligations.StepKeepsTheConstants : Prop :=
  (∀ s t : State, step s = .next t → t.cfg = s.cfg) ∧ ∀ (i : Instr) (s t : State), exec i s = .next t → t.cfg = s.cfg

/-- R62: only completion and reset write result registers. -/
def Obligations.OnlyCompletionAndResetWriteResults : Prop :=
  ∀ s t : State, step s = .next t → ¬ EngineMoves s → ¬ ResetMoves s → SameResults t.blk s.blk

/-- R22: only issue, completion, a dropped `CMD` write, a `STATUS` write and reset change `STATUS`. -/
def Obligations.StatusChangesOnlySo : Prop :=
  ∀ s t : State, step s = .next t → statusByte t.blk ≠ statusByte s.blk →
    EngineMoves s ∨ ResetMoves s ∨
    (HostMoves s ∧ ∃ v rest, s.env.ops = .write 0x00 v :: rest ∨ s.env.ops = .write 0x01 v :: rest)

/-- R33, R63: only an issue and a reset change the latches; a completion and any other transaction keep them. -/
def Obligations.OnlyIssueAndResetWriteLatches : Prop :=
  ∀ s t : State, step s = .next t → ¬ ResetMoves s →
    (t.blk.lcmd = s.blk.lcmd ∧ t.blk.linlen = s.blk.linlen ∧ t.blk.lin = s.blk.lin) ∨
    (HostMoves s ∧ s.blk.busy = false ∧ t.blk.linlen = s.blk.inlen ∧ t.blk.lin = s.blk.inBuf ∧
      ∃ rest, s.env.ops = .write 0x00 t.blk.lcmd :: rest)

/-- R258: the completion of a command in flight comes after finitely many steps, whatever the host does meanwhile, unless a reset
abandons it. The bound is the number of turns listed, which is the model's own (log entry 1). -/
def Obligations.CommandInFlightCompletes : Prop :=
  ∀ s : State, s.blk.busy = true → .reset ∉ s.env.turns → HostInSpec s →
    ∃ k t, k ≤ s.env.turns.length + 1 ∧ Sys2Proof.core.run k s = .next t ∧ t.blk.busy = false ∧ t.blk.done = true

/-- R59, R60, R63: a legal word is written to `CMD` of an idle block, and the engine completes it. With no turn listed the engine comes
right after the write, by the model's choice (log entry 1), and the result is `exec` of the command on the operand that stood in
`INLEN` and `IN` at the write. With `k` more turns of the host listed between the write and the engine's, whatever the host does in
them, the block differs from the one after the issue in `INLEN`, `IN` and `OVR` only, and the results are still those of `exec` on
the operand at the write. -/
def Obligations.IssuedCommandCompletes : Prop :=
  (∀ (s : State) (w : Byte) (i : Instr) (rest : List HostOp), s.blk.busy = false → s.env.turns = [] →
    s.env.ops = .write 0x00 w :: rest → decode w = .ok i →
    ∃ t, Sys2Proof.core.run 2 s = .next t ∧ t.blk.done = true ∧
      exec i { s with
        blk := { s.blk with lcmd := w, linlen := s.blk.inlen, lin := s.blk.inBuf, busy := true, done := false }
        env := { s.env with ops := rest } } = .next t) ∧
  ∀ (s : State) (w : Byte) (i : Instr) (rest : List HostOp) (k : Nat) (ts : List Turn), s.blk.busy = false → HostInSpec s →
    s.env.turns = .host :: (List.replicate k .host ++ .engine :: ts) → s.env.ops = .write 0x00 w :: rest → decode w = .ok i →
    ∃ u t r, Sys2Proof.core.run (1 + k) s = .next u ∧
      u.blk = { s.blk with
        lcmd := w, linlen := s.blk.inlen, lin := s.blk.inBuf, busy := true, done := false
        inlen := u.blk.inlen, inBuf := u.blk.inBuf, ovr := u.blk.ovr } ∧
      Sys2Proof.core.run (1 + k + 1) s = .next t ∧ t.blk.busy = false ∧ t.blk.done = true ∧
      exec i { s with
        blk := { s.blk with lcmd := w, linlen := s.blk.inlen, lin := s.blk.inBuf, busy := true, done := false } } = .next r ∧
      SameResults t.blk r.blk ∧ t.blk.inlen = u.blk.inlen ∧ t.blk.inBuf = u.blk.inBuf ∧ t.blk.ovr = u.blk.ovr

/-- R81, `LOADSTR`: its writes leave `INLEN` at the string's length, at most 255, and `IN` holding its first 16 characters, the other
bytes of `IN` as they were, and change nothing else in the block, idle or busy (R256). The steps are the host's by the turns listed,
or, in an idle block whose turns are used up, by the model's choice (log entry 1). -/
def Obligations.LoadStrLoadsTheOperand : Prop :=
  ∀ (s : State) (str : List Byte) (rest : List HostOp), HostHasTurns (1 + min str.length 16) s → s.env.ops = loadStr str ++ rest →
    ∃ t, Sys2Proof.core.run (1 + min str.length 16) s = .next t ∧ t.blk.inlen.toNat = min str.length 255 ∧
      (∀ i : Fin 16, t.blk.inBuf[i] = (str[i.val]?).getD s.blk.inBuf[i]) ∧
      t.blk = { s.blk with inlen := t.blk.inlen, inBuf := t.blk.inBuf } ∧ t.cfg = s.cfg ∧
      t.env = { s.env with turns := s.env.turns.drop (1 + min str.length 16), ops := rest }

/-- R81, `WAITDONE`: the host reads `STATUS` and does so again until `DONE` is 1. -/
def Obligations.WaitDonePollsStatus : Prop :=
  ∀ (s : State) (rest : List HostOp), HostMoves s → s.env.ops = .pollDone :: rest →
    ∃ t, step s = .next t ∧ t.blk = s.blk ∧ t.env.reads = s.env.reads ++ [(0x01, statusByte s.blk)] ∧
      (s.blk.done = true → t.env.ops = rest) ∧ (s.blk.done = false → t.env.ops = s.env.ops)

/-- R81, `READOUT`: its reads return `OUTLEN` and then the bytes of the result string, and change nothing in the block, idle or busy.
The invariant gives `OUTLEN` its range. The steps are the host's by the turns listed, or, in an idle block whose turns are used up, by
the model's choice (log entry 1). -/
def Obligations.ReadOutReturnsTheResult : Prop :=
  ∀ (s : State) (rest : List HostOp), StateInv s → HostHasTurns (1 + s.blk.outlen.toNat) s → s.env.ops = readOut ++ rest →
    ∃ t, Sys2Proof.core.run (1 + s.blk.outlen.toNat) s = .next t ∧ t.blk = s.blk ∧ t.cfg = s.cfg ∧ t.env.ops = rest ∧
      t.env.reads.map Prod.snd = s.env.reads.map Prod.snd ++ s.blk.outlen :: outString s.blk

/-- R214: from the error registers the host forms the required substring of the message, for a type error and for each operation's
length error. -/
def Obligations.RequiredSubstrings : Prop :=
  (∀ (i : Instr) (s : State), argKind i = .nonText →
    ∃ t, exec i s = .next t ∧ requiredSubstring t.blk = some (ascii "type string")) ∧
  ∀ (i : Instr) (s : State), argKind i = .text → s.blk.linlen.toNat ∉ acceptedLens i →
    ∃ t, exec i s = .next t ∧
      (acceptedLens i = [12] → requiredSubstring t.blk = some (ascii "must be 12 characters long")) ∧
      (acceptedLens i = [13] → requiredSubstring t.blk = some (ascii "must be 13 characters long")) ∧
      (acceptedLens i = [7] → requiredSubstring t.blk = some (ascii "must be 7 characters long")) ∧
      (acceptedLens i = [8] → requiredSubstring t.blk = some (ascii "must be 8 characters long")) ∧
      (acceptedLens i = [12, 13] → requiredSubstring t.blk = some (ascii "must be either of [12,13] characters long")) ∧
      (acceptedLens i = [7, 8] → requiredSubstring t.blk = some (ascii "must be either of [7,8] characters long"))
end

