-- ==== Sys2Proof/Laws/Checksum.lean ====
section
/-! SUPPORT. The accumulator is exact, the check value is in range, and the check string is the check value's. -/

namespace Sys2Proof.Machine

/-- The accumulation loop is the exact sum, as long as it stays below 256 (R122, R128). -/
theorem accumFrom_toNat (v : Variant) (i : Nat) (acc : Byte) (ds : List Digit)
    (h : acc.toNat + (ds.mapIdx fun j d => d.val * weight v (i + j)).sum < 256) :
    (accumFrom v i acc ds).toNat = acc.toNat + (ds.mapIdx fun j d => d.val * weight v (i + j)).sum := by
  induction ds generalizing i acc with
  | nil => simp [accumFrom]
  | cons d ds ih =>
    have hshift : (ds.mapIdx fun j d => d.val * weight v (i + 1 + j)) = ds.mapIdx fun j d => d.val * weight v (i + (j + 1)) := by
      congr 1; funext j d; congr 2; omega
    simp only [List.mapIdx_cons, List.sum_cons, Nat.add_zero, ← hshift] at h ⊢
    have hacc : (acc + BitVec.ofNat 8 (d.val * weight v i)).toNat = acc.toNat + d.val * weight v i := by
      simp only [BitVec.toNat_add, BitVec.toNat_ofNat]; omega
    rw [accumFrom, ih (i + 1) _ (by rw [hacc]; omega), hacc]
    omega

/-- The weights R120 and R121 list are those of the parity rule, position by position. -/
theorem weights_eq (v : Variant) : weights v = (List.range' 0 (payloadLen v)).map (weight v) := by
  cases v <;> decide

theorem zipWith_weights (v : Variant) (i n : Nat) (ds : List Digit) (h : ds.length ≤ n) :
    List.zipWith (fun d w => d.val * w) ds ((List.range' i n).map (weight v)) =
      ds.mapIdx fun j d => d.val * weight v (i + j) := by
  induction ds generalizing i n with
  | nil => simp
  | cons d ds ih =>
    cases n with
    | zero => simp at h
    | succ n =>
      rw [List.range'_succ, List.map_cons, List.zipWith_cons_cons, ih (i + 1) n (by simpa using h), List.mapIdx_cons]
      congr 2
      funext j d
      congr 2
      omega

/-- A weighted sum is at most nine times the sum of the weights (R122). -/
theorem zipWith_sum_le (ds : List Digit) (ws : List Nat) : (List.zipWith (fun d w => d.val * w) ds ws).sum ≤ 9 * ws.sum := by
  induction ws generalizing ds with
  | nil => simp
  | cons w ws ih =>
    cases ds with
    | nil => simp
    | cons d ds =>
      have := ih ds
      have hd : d.val * w ≤ 9 * w := Nat.mul_le_mul_right w (by omega)
      simp only [List.zipWith_cons_cons, List.sum_cons]
      omega

/-- The sum's range (R122, R128). -/
theorem weightedSum_le (v : Variant) (ds : List Digit) : weightedSum v ds ≤ match v with | .ean13 => 216 | .ean8 => 135 := by
  have := zipWith_sum_le ds (weights v)
  cases v <;> exact this

theorem weightedSum_lt (v : Variant) (ds : List Digit) : weightedSum v ds ≤ 216 := by
  have := weightedSum_le v ds
  cases v <;> simp only at this <;> omega

/-- `ACCUM` is the weighted sum (R122). -/
theorem accum_toNat (v : Variant) (ds : List Digit) (h : ds.length ≤ payloadLen v) :
    (accum v ds).toNat = weightedSum v ds := by
  have hz : (0 : Byte).toNat = 0 := rfl
  have hsum : (ds.mapIdx fun j d => d.val * weight v (0 + j)).sum = weightedSum v ds := by
    rw [weightedSum, weights_eq, zipWith_weights v 0 _ ds h]
  have := weightedSum_lt v ds
  rw [accum, accumFrom_toNat v 0 0 ds (by rw [hz, hsum]; omega), hz, hsum, Nat.zero_add]

/-- The weighted sum looks at the payload only. -/
theorem weightedSum_take (v : Variant) (ds : List Digit) : weightedSum v (ds.take (payloadLen v)) = weightedSum v ds := by
  have hlen : (weights v).length = payloadLen v := by cases v <;> rfl
  unfold weightedSum
  rw [← hlen]
  have h := List.take_zipWith (f := fun (d : Digit) (w : Nat) => d.val * w) (l := ds) (l' := weights v) (i := (weights v).length)
  rw [List.take_length, List.take_of_length_le (by simp)] at h
  rw [← h]

/-- The accumulator of a barcode is its payload's weighted sum (R122). -/
theorem payloadAccum_toNat (v : Variant) (ds : List Digit) : (payloadAccum v ds).toNat = weightedSum v ds := by
  rw [payloadAccum, accum_toNat v _ (List.length_take_le _ _), weightedSum_take]

/-- `CHECK` is the check value of the accumulator (R123). -/
theorem check_toNat (ten : Bool) (acc : Byte) : (check ten acc).toNat = checkValue ten acc.toNat := by
  unfold check checkValue
  split
  · cases ten <;> rfl
  · simp only [BitVec.toNat_ofNat]; omega

theorem checkValue_le (ten : Bool) (n : Nat) : checkValue ten n ≤ 10 := by
  unfold checkValue; split
  · cases ten <;> decide
  · omega

/-- The check value is 10 only with `P_CHECK_TEN` and at a multiple of 10 (R123). -/
theorem checkValue_eq_ten (ten : Bool) (n : Nat) : checkValue ten n = 10 ↔ ten = true ∧ n % 10 = 0 := by
  unfold checkValue; split
  · cases ten <;> simp_all
  · simp_all; omega

/-- The check value of a barcode's payload (R123). -/
theorem check_payloadAccum (ten : Bool) (v : Variant) (ds : List Digit) :
    (check ten (payloadAccum v ds)).toNat = checkValue ten (weightedSum v ds) := by
  rw [check_toNat, payloadAccum_toNat]

/-- `chkstr` is the check string (R124). -/
theorem chkstr_eq (k : Byte) (h : k.toNat ≤ 10) : chkstr k = checkString k.toNat := by
  have : ∀ k : Byte, k.toNat ≤ 10 → chkstr k = checkString k.toNat := by decide
  exact this k h

theorem checkString_length (k : Nat) : 1 ≤ (checkString k).length ∧ (checkString k).length ≤ 2 := by
  unfold checkString; split <;> simp

/-- A one-digit check value's string is its character (R124). -/
theorem checkString_digit (d : Digit) : checkString d.val = [dchar d] := by
  revert d; decide

/-- The comparison of R126 and R161. -/
theorem checkMatches_iff (ten : Bool) (v : Variant) (ds : List Digit) :
    checkMatches v (check ten (payloadAccum v ds)) ds = true ↔ CheckDigitRight ten v ds := by
  unfold checkMatches CheckDigitRight
  rw [check_payloadAccum]
  cases hd : ds[payloadLen v]? with
  | none => simp
  | some d => have := d.isLt; simp; omega

end Sys2Proof.Machine
end

