-- ==== Sys2Proof/Laws/Encode.lean ====
section
/-! SUPPORT. The font string: one symbol per position, left to right, and its length. -/

namespace Sys2Proof.Machine

theorem symbol_bytes_length (y : Symbol) : 1 ≤ y.bytes.length ∧ y.bytes.length ≤ 2 := by
  cases y <;> simp [Symbol.bytes]

/-- A digit sequence as a function of the position. -/
theorem exists_ofFn (n : Nat) (ds : List Digit) (h : ds.length = n) : ∃ d : Fin n → Digit, ds = List.ofFn d := by
  subst h
  exact ⟨ds.get, (List.ofFn_get ds).symm⟩

/-- Along a row of the order matrix, the font string is the symbols of the positions, left to right (R158). -/
theorem fontRow_eq {tables : Nat} (ts : Vector (Vector Symbol 10) tables) (row : List (Fin tables)) (ds : List Digit) :
    fontRow ts row ds = (List.zipWith (fun t d => ts[t][d].bytes) row ds).flatten := by
  induction row generalizing ds with
  | nil => rfl
  | cons t row ih =>
    cases ds with
    | nil => rfl
    | cons d ds => rw [fontRow, ih]; rfl

/-- `FONTENC` of a full digit sequence is the symbols of its positions, left to right (R158). -/
theorem fontString_ofFn {tables len : Nat} (F : Font tables (len + 1)) (d : Fin (len + 1) → Digit) :
    fontString F (List.ofFn d) = (List.finRange (len + 1)).flatMap fun i => (F.symbolAt (d 0) i (d i)).bytes := by
  have hrow : ∀ f : Digit, F.ord[f].toList = (List.finRange (len + 1)).map fun i => F.ord[f][i] := by
    intro f
    apply List.ext_getElem <;> simp
  have hds : List.ofFn d = (List.finRange (len + 1)).map d := List.ofFn_eq_map
  have hcons : List.ofFn d = d 0 :: List.ofFn fun i : Fin len => d i.succ := List.ofFn_succ
  have hdef : fontString F (List.ofFn d) = fontRow F.ts F.ord[d 0].toList (List.ofFn d) := by
    rw [hcons]; rfl
  rw [hdef, fontRow_eq, hrow, hds, List.zipWith_map, List.zipWith_self, List.flatMap_def]
  rfl

theorem flatMap_symbols_length {α : Type} (l : List α) (f : α → Symbol) :
    l.length ≤ (l.flatMap fun i => (f i).bytes).length ∧ (l.flatMap fun i => (f i).bytes).length ≤ 2 * l.length := by
  induction l with
  | nil => simp
  | cons a l ih =>
    have := symbol_bytes_length (f a)
    simp only [List.flatMap_cons, List.length_append, List.length_cons]
    omega

end Sys2Proof.Machine
end

