-- ==== Sys2Proof/Laws/Operands.lean ====
section
/-! SUPPORT. What the admission front end answers: reading digits, and the three checks. -/

namespace Sys2Proof.Machine

theorem digitOf_eq_none_iff (b : Byte) : digitOf b = none ↔ ¬ IsDigit b := by
  unfold digitOf IsDigit
  split <;> simp_all

theorem digitOf_dchar (d : Digit) : digitOf (dchar d) = some d := by
  revert d; decide

theorem dchar_isDigit (d : Digit) : IsDigit (dchar d) := by
  revert d; unfold IsDigit; decide

/-- The digit of a byte is the byte's own character (R11). -/
theorem dchar_of_digitOf (b : Byte) (d : Digit) (h : digitOf b = some d) : dchar d = b := by
  revert h; revert d; revert b; decide

/-- A digit string reads as its digits (R107). -/
theorem readDigits_digitString (i : Nat) (ds : List Digit) : readDigits i (digitString ds) = .ok ds := by
  induction ds generalizing i with
  | nil => rfl
  | cons d ds ih =>
    have := ih (i + 1)
    simp only [digitString, List.map_cons, readDigits, digitOf_dchar] at this ⊢
    rw [this]

/-- Reading digits succeeds on digit strings only (R106). -/
theorem readDigits_ok (i : Nat) (str : List Byte) (ds : List Digit) (h : readDigits i str = .ok ds) :
    digitString ds = str := by
  induction str generalizing i ds with
  | nil => simp only [readDigits, Except.ok.injEq] at h; subst h; rfl
  | cons b str ih =>
    simp only [readDigits] at h
    split at h
    · cases h
    · cases h
    · rename_i d ds' hd hds
      cases h
      simp only [digitString, List.map_cons, dchar_of_digitOf b d hd]
      rw [← ih (i + 1) ds' hds]
      rfl

/-- Reading digits reports the index of the first byte that is none (R106). -/
theorem readDigits_firstNonDigit (i k : Nat) (str : List Byte) (h : FirstNonDigit str k) :
    readDigits i str = .error (i + k) := by
  induction str generalizing i k with
  | nil => obtain ⟨⟨b, hb, -⟩, -⟩ := h; simp at hb
  | cons b str ih =>
    obtain ⟨⟨c, hc, hnd⟩, hlow⟩ := h
    cases k with
    | zero =>
      simp only [List.getElem?_cons_zero, Option.some.injEq] at hc
      subst hc
      simp [readDigits, (digitOf_eq_none_iff b).2 hnd]
    | succ k =>
      have hb : IsDigit b := hlow 0 b (by omega) rfl
      have hrec : readDigits (i + 1) str = .error (i + 1 + k) := by
        apply ih
        exact ⟨⟨c, by simpa using hc, hnd⟩, fun j b' hj hb' => hlow (j + 1) b' (by omega) (by simpa using hb')⟩
      have hsome : digitOf b ≠ none := fun h0 => (digitOf_eq_none_iff b).1 h0 hb
      obtain ⟨d, hd⟩ := Option.ne_none_iff_exists'.1 hsome
      simp only [readDigits, hd, hrec]
      congr 1
      omega

/-- The operand string of a latched string of at most 16 characters is the string (R33). -/
theorem operand_of_latched (b : Block) (str : List Byte) (h : Latched b str) : operand b = str := by
  obtain ⟨hlen, htake⟩ := h
  have h16 : str.length ≤ 16 := by
    rw [← htake]; simp
  rw [operand, hlen, Nat.min_eq_left h16, htake]

@[simp] theorem digitString_length (ds : List Digit) : (digitString ds).length = ds.length := by simp [digitString]

theorem digitString_append (ds es : List Digit) : digitString (ds ++ es) = digitString ds ++ digitString es := by
  simp [digitString]

theorem digitString_take (n : Nat) (ds : List Digit) : (digitString ds).take n = digitString (ds.take n) := by
  simp [digitString, List.map_take]

/-- The front end admits a digit string of an accepted length, with its digits (R107). -/
theorem admit_digits (a : Accepted) (b : Block) (ds : List Digit) (h : Latched b (digitString ds))
    (ha : a.has ds.length = true) : admission .text a b = .ok ds := by
  have hl : b.linlen.toNat = ds.length := by simpa using h.1
  simp [admission, hl, ha, operand_of_latched b _ h, readDigits_digitString]

/-- The type check (R103). -/
theorem admit_nonText (a : Accepted) (b : Block) : admission .nonText a b = .error .typeMismatch := rfl

/-- The length check (R105). -/
theorem admit_wrongLength (a : Accepted) (b : Block) (ha : a.has b.linlen.toNat = false) :
    admission .text a b = .error (.lengthMismatch a) := by
  simp [admission, ha]

/-- The digit check (R106). -/
theorem admit_firstNonDigit (a : Accepted) (b : Block) (str : List Byte) (k : Nat) (h : Latched b str)
    (ha : a.has str.length = true) (hk : FirstNonDigit str k) : admission .text a b = .error (.nonDigit k) := by
  simp [admission, h.1, ha, operand_of_latched b _ h, readDigits_firstNonDigit 0 k str hk]

/-- Everything the front end can answer (R100): the operand's digits, of an accepted length, or one of its three errors, a non-digit's
index being below the operand's length. -/
theorem admit_cases (k : ArgKind) (a : Accepted) (b : Block) :
    (∃ ds, admission k a b = .ok ds ∧ k = .text ∧ a.has b.linlen.toNat = true ∧ digitString ds = operand b) ∨
    (admission k a b = .error .typeMismatch ∧ k = .nonText) ∨
    (admission k a b = .error (.lengthMismatch a) ∧ k = .text ∧ a.has b.linlen.toNat = false) ∨
    (∃ i, admission k a b = .error (.nonDigit i) ∧ k = .text ∧ a.has b.linlen.toNat = true ∧ i < (operand b).length) := by
  have hlt : ∀ (str : List Byte) (j i : Nat), readDigits j str = .error i → i < j + str.length := by
    intro str
    induction str with
    | nil => intro j i h; cases h
    | cons c str ih =>
      intro j i h
      simp only [readDigits] at h
      split at h
      · cases h; simp
      · rename_i hr; cases h; have := ih _ _ hr; simp only [List.length_cons]; omega
      · cases h
  cases k with
  | nonText => exact .inr (.inl ⟨rfl, rfl⟩)
  | text =>
    cases ha : a.has b.linlen.toNat with
    | false => exact .inr (.inr (.inl ⟨by simp [admission, ha], rfl, rfl⟩))
    | true =>
      cases hr : readDigits 0 (operand b) with
      | ok ds => exact .inl ⟨ds, by simp [admission, ha, hr], rfl, rfl, readDigits_ok 0 _ _ hr⟩
      | error i =>
        have := hlt _ _ _ hr
        exact .inr (.inr (.inr ⟨i, by simp [admission, ha, hr], rfl, rfl, by omega⟩))

end Sys2Proof.Machine
end

