-- ==== Sys2Proof/Laws/State.lean ====
section
/-! SUPPORT. One lemma per field per update, true by rfl: what each operation on the block or on the state leaves in each field. -/

namespace Sys2Proof.Machine

section Complete
variable (r : Result) (b : Block)

@[simp] theorem complete_busy : (complete r b).busy = false := rfl
@[simp] theorem complete_done : (complete r b).done = true := rfl
@[simp] theorem complete_err : (complete r b).err = r.err := rfl
@[simp] theorem complete_valid : (complete r b).valid = r.valid := rfl
@[simp] theorem complete_ovr : (complete r b).ovr = b.ovr := rfl
@[simp] theorem complete_errcode : (complete r b).errcode = r.errcode := rfl
@[simp] theorem complete_errnl : (complete r b).errnl = r.errnl := rfl
@[simp] theorem complete_errl0 : (complete r b).errl0 = r.errl0 := rfl
@[simp] theorem complete_errl1 : (complete r b).errl1 = r.errl1 := rfl
@[simp] theorem complete_inlen : (complete r b).inlen = b.inlen := rfl
@[simp] theorem complete_inBuf : (complete r b).inBuf = b.inBuf := rfl
@[simp] theorem complete_acc : (complete r b).acc = r.acc := rfl
@[simp] theorem complete_chk : (complete r b).chk = r.chk := rfl
@[simp] theorem complete_outlen : (complete r b).outlen = BitVec.ofNat 8 r.out.length := rfl
@[simp] theorem complete_outBuf : (complete r b).outBuf = packOut r.out := rfl
@[simp] theorem complete_lcmd : (complete r b).lcmd = b.lcmd := rfl
@[simp] theorem complete_linlen : (complete r b).linlen = b.linlen := rfl
@[simp] theorem complete_lin : (complete r b).lin = b.lin := rfl

end Complete

section Issue
variable (v : Byte) (b : Block)

@[simp] theorem issue_busy : (issue v b).busy = true := rfl
@[simp] theorem issue_done : (issue v b).done = false := rfl
@[simp] theorem issue_err : (issue v b).err = b.err := rfl
@[simp] theorem issue_valid : (issue v b).valid = b.valid := rfl
@[simp] theorem issue_ovr : (issue v b).ovr = b.ovr := rfl
@[simp] theorem issue_errcode : (issue v b).errcode = b.errcode := rfl
@[simp] theorem issue_errnl : (issue v b).errnl = b.errnl := rfl
@[simp] theorem issue_errl0 : (issue v b).errl0 = b.errl0 := rfl
@[simp] theorem issue_errl1 : (issue v b).errl1 = b.errl1 := rfl
@[simp] theorem issue_inlen : (issue v b).inlen = b.inlen := rfl
@[simp] theorem issue_inBuf : (issue v b).inBuf = b.inBuf := rfl
@[simp] theorem issue_acc : (issue v b).acc = b.acc := rfl
@[simp] theorem issue_chk : (issue v b).chk = b.chk := rfl
@[simp] theorem issue_outlen : (issue v b).outlen = b.outlen := rfl
@[simp] theorem issue_outBuf : (issue v b).outBuf = b.outBuf := rfl
@[simp] theorem issue_lcmd : (issue v b).lcmd = v := rfl
@[simp] theorem issue_linlen : (issue v b).linlen = b.inlen := rfl
@[simp] theorem issue_lin : (issue v b).lin = b.inBuf := rfl

end Issue

section DropIssue
variable (b : Block)

@[simp] theorem dropIssue_busy : (dropIssue b).busy = b.busy := rfl
@[simp] theorem dropIssue_done : (dropIssue b).done = b.done := rfl
@[simp] theorem dropIssue_err : (dropIssue b).err = b.err := rfl
@[simp] theorem dropIssue_valid : (dropIssue b).valid = b.valid := rfl
@[simp] theorem dropIssue_ovr : (dropIssue b).ovr = true := rfl
@[simp] theorem dropIssue_errcode : (dropIssue b).errcode = b.errcode := rfl
@[simp] theorem dropIssue_errnl : (dropIssue b).errnl = b.errnl := rfl
@[simp] theorem dropIssue_errl0 : (dropIssue b).errl0 = b.errl0 := rfl
@[simp] theorem dropIssue_errl1 : (dropIssue b).errl1 = b.errl1 := rfl
@[simp] theorem dropIssue_inlen : (dropIssue b).inlen = b.inlen := rfl
@[simp] theorem dropIssue_inBuf : (dropIssue b).inBuf = b.inBuf := rfl
@[simp] theorem dropIssue_acc : (dropIssue b).acc = b.acc := rfl
@[simp] theorem dropIssue_chk : (dropIssue b).chk = b.chk := rfl
@[simp] theorem dropIssue_outlen : (dropIssue b).outlen = b.outlen := rfl
@[simp] theorem dropIssue_outBuf : (dropIssue b).outBuf = b.outBuf := rfl
@[simp] theorem dropIssue_lcmd : (dropIssue b).lcmd = b.lcmd := rfl
@[simp] theorem dropIssue_linlen : (dropIssue b).linlen = b.linlen := rfl
@[simp] theorem dropIssue_lin : (dropIssue b).lin = b.lin := rfl

end DropIssue

section WriteStatus
variable (v : Byte) (b : Block)

@[simp] theorem writeStatus_busy : (writeStatus v b).busy = b.busy := rfl
@[simp] theorem writeStatus_done : (writeStatus v b).done = b.done := rfl
@[simp] theorem writeStatus_err : (writeStatus v b).err = b.err := rfl
@[simp] theorem writeStatus_valid : (writeStatus v b).valid = b.valid := rfl
@[simp] theorem writeStatus_ovr : (writeStatus v b).ovr = (b.ovr && !v.getLsbD 4) := rfl
@[simp] theorem writeStatus_errcode : (writeStatus v b).errcode = b.errcode := rfl
@[simp] theorem writeStatus_errnl : (writeStatus v b).errnl = b.errnl := rfl
@[simp] theorem writeStatus_errl0 : (writeStatus v b).errl0 = b.errl0 := rfl
@[simp] theorem writeStatus_errl1 : (writeStatus v b).errl1 = b.errl1 := rfl
@[simp] theorem writeStatus_inlen : (writeStatus v b).inlen = b.inlen := rfl
@[simp] theorem writeStatus_inBuf : (writeStatus v b).inBuf = b.inBuf := rfl
@[simp] theorem writeStatus_acc : (writeStatus v b).acc = b.acc := rfl
@[simp] theorem writeStatus_chk : (writeStatus v b).chk = b.chk := rfl
@[simp] theorem writeStatus_outlen : (writeStatus v b).outlen = b.outlen := rfl
@[simp] theorem writeStatus_outBuf : (writeStatus v b).outBuf = b.outBuf := rfl
@[simp] theorem writeStatus_lcmd : (writeStatus v b).lcmd = b.lcmd := rfl
@[simp] theorem writeStatus_linlen : (writeStatus v b).linlen = b.linlen := rfl
@[simp] theorem writeStatus_lin : (writeStatus v b).lin = b.lin := rfl

end WriteStatus

section StateUpdates
variable (s : State)

@[simp] theorem takeTurn_blk : (takeTurn s).blk = s.blk := rfl
@[simp] theorem takeTurn_cfg : (takeTurn s).cfg = s.cfg := rfl
@[simp] theorem takeTurn_turns : (takeTurn s).env.turns = s.env.turns.tail := rfl
@[simp] theorem takeTurn_ops : (takeTurn s).env.ops = s.env.ops := rfl
@[simp] theorem takeTurn_reads : (takeTurn s).env.reads = s.env.reads := rfl

@[simp] theorem resetBlock_blk : (resetBlock s).blk = Block.reset := rfl
@[simp] theorem resetBlock_cfg : (resetBlock s).cfg = s.cfg := rfl
@[simp] theorem resetBlock_turns : (resetBlock s).env.turns = s.env.turns := rfl
@[simp] theorem resetBlock_ops : (resetBlock s).env.ops = s.env.ops := rfl
@[simp] theorem resetBlock_reads : (resetBlock s).env.reads = s.env.reads := rfl

@[simp] theorem hostRead_blk (off : Offset) (rest : List HostOp) : (hostRead off rest s).blk = s.blk := rfl
@[simp] theorem hostRead_cfg (off : Offset) (rest : List HostOp) : (hostRead off rest s).cfg = s.cfg := rfl
@[simp] theorem hostRead_turns (off : Offset) (rest : List HostOp) : (hostRead off rest s).env.turns = s.env.turns := rfl
@[simp] theorem hostRead_ops (off : Offset) (rest : List HostOp) : (hostRead off rest s).env.ops = rest := rfl
@[simp] theorem hostRead_reads (off : Offset) (rest : List HostOp) : (hostRead off rest s).env.reads = s.env.reads ++ [(off, readReg off s.blk)] := rfl

@[simp] theorem hostWrite_blk (off : Offset) (v : Byte) (rest : List HostOp) : (hostWrite off v rest s).blk = writeReg off v s.blk := rfl
@[simp] theorem hostWrite_cfg (off : Offset) (v : Byte) (rest : List HostOp) : (hostWrite off v rest s).cfg = s.cfg := rfl
@[simp] theorem hostWrite_turns (off : Offset) (v : Byte) (rest : List HostOp) : (hostWrite off v rest s).env.turns = s.env.turns := rfl
@[simp] theorem hostWrite_ops (off : Offset) (v : Byte) (rest : List HostOp) : (hostWrite off v rest s).env.ops = rest := rfl
@[simp] theorem hostWrite_reads (off : Offset) (v : Byte) (rest : List HostOp) : (hostWrite off v rest s).env.reads = s.env.reads := rfl

@[simp] theorem withFetchWord_blk (n w : Nat) : (s.withFetchWord n w).blk = { s.blk with lcmd := BitVec.ofNat 8 (w % 2 ^ n), busy := true, done := false } := rfl
@[simp] theorem withFetchWord_cfg (n w : Nat) : (s.withFetchWord n w).cfg = s.cfg := rfl
@[simp] theorem withFetchWord_turns (n w : Nat) : (s.withFetchWord n w).env.turns = .engine :: s.env.turns := rfl
@[simp] theorem withFetchWord_ops (n w : Nat) : (s.withFetchWord n w).env.ops = s.env.ops := rfl
@[simp] theorem withFetchWord_reads (n w : Nat) : (s.withFetchWord n w).env.reads = s.env.reads := rfl

end StateUpdates

end Sys2Proof.Machine
end

