-- ==== Sys2Proof/Laws/Exec.lean ====
section
/-! SUPPORT. What a completion leaves (R60, R205), and what `exec` answers: always a next state, with the command's result record
written. -/

namespace Sys2Proof.Machine

theorem padTo_getElem? (n : Nat) (str : List Byte) (i : Nat) (h : i < n) : (padTo n str)[i]? = some ((str[i]?).getD 0x00) := by
  induction n generalizing str i with
  | zero => omega
  | succ n ih =>
    cases str with
    | nil =>
      cases i with
      | zero => rfl
      | succ i => simpa [padTo] using ih [] i (by omega)
    | cons b str =>
      cases i with
      | zero => rfl
      | succ i => simpa [padTo] using ih str i (by omega)

/-- `OUT[i]` is byte `i` of the result string, and 0x00 behind it (R32, R60). -/
theorem packOut_getElem (out : List Byte) (i : Fin 32) : (packOut out)[i] = (out[i.val]?).getD 0x00 := by
  have hlist : (packOut out).toList = padTo 32 out := rfl
  have h := padTo_getElem? 32 out i.val i.isLt
  rw [← hlist, Vector.getElem?_toList, Vector.getElem?_eq_getElem i.isLt, Option.some.injEq] at h
  exact h

/-- The completion step is as R60 says, for every result string that `OUTLEN` can count. -/
theorem completed_of_complete (s : State) (r : Result) (h : r.out.length ≤ 255) :
    Completed s { s with blk := complete r s.blk } r where
  busy := rfl
  done := rfl
  err := rfl
  valid := rfl
  errcode := rfl
  errnl := rfl
  errl0 := rfl
  errl1 := rfl
  acc := rfl
  chk := rfl
  outlen := by
    show (BitVec.ofNat 8 r.out.length).toNat = _
    simp only [BitVec.toNat_ofNat]
    omega
  outBuf := fun i => packOut_getElem r.out i
  ovr := rfl
  inlen := rfl
  inBuf := rfl
  lcmd := rfl
  linlen := rfl
  lin := rfl
  cfg := rfl
  env := rfl

/-- The result string of a completion, as the host finds it. -/
theorem outString_of_completed (s t : State) (r : Result) (h : Completed s t r) (hlen : r.out.length ≤ 32) :
    outString t.blk = r.out := by
  apply List.ext_getElem?
  intro i
  rw [outString, h.outlen, List.getElem?_take]
  split
  · rename_i hi
    have h32 : i < 32 := by omega
    have hb := h.outBuf ⟨i, h32⟩
    rw [Vector.getElem?_toList, Vector.getElem?_eq_getElem h32, List.getElem?_eq_getElem hi]
    rw [List.getElem?_eq_getElem hi] at hb
    exact congrArg some hb
  · rename_i hi
    rw [List.getElem?_eq_none (by omega)]

/-- The result record a command writes at its completion. -/
def commandResult (i : Instr) (s : State) : Result :=
  match i with
  | .checksumEan13 k => checksumResult .ean13 k s
  | .isvalidEan13 k => isvalidResult .ean13 k s
  | .fixEan13 k => fixResult .ean13 k s
  | .encodeEan13 nv k => encodeResult .ean13 nv k s
  | .checksumEan8 k => checksumResult .ean8 k s
  | .isvalidEan8 k => isvalidResult .ean8 k s
  | .fixEan8 k => fixResult .ean8 k s
  | .encodeEan8 nv k => encodeResult .ean8 nv k s

/-- `exec` always answers a next state: the state with the command's result record written (R60). -/
theorem exec_eq (i : Instr) (s : State) : exec i s = .next { s with blk := complete (commandResult i s) s.blk } := by
  cases i <;> rfl

theorem exec_checksumOf (v : Variant) (k : ArgKind) (s : State) : exec (checksumOf v k) s = finish s (checksumResult v k s) := by
  cases v <;> rfl

theorem exec_isvalidOf (v : Variant) (k : ArgKind) (s : State) : exec (isvalidOf v k) s = finish s (isvalidResult v k s) := by
  cases v <;> rfl

theorem exec_fixOf (v : Variant) (k : ArgKind) (s : State) : exec (fixOf v k) s = finish s (fixResult v k s) := by
  cases v <;> rfl

theorem exec_encodeOf (v : Variant) (nv : Bool) (k : ArgKind) (s : State) :
    exec (encodeOf v nv k) s = finish s (encodeResult v nv k s) := by
  cases v <;> rfl

/-- An error's result string is empty (R205). -/
theorem raise_out (e : CmdError) : (raise e).out = [] := by
  cases e with
  | lengthMismatch a => cases a <;> rfl
  | _ => rfl

/-- A completion by an error, as R60 and R205 say. -/
theorem completed_raise (s : State) (e : CmdError) : Completed s { s with blk := complete (raise e) s.blk } (raise e) :=
  completed_of_complete s _ (by rw [raise_out]; simp)

/-- The accepted lengths of a one-element or two-element list (R104). -/
theorem single_has (n m : Nat) : (Accepted.single m).has n = true ↔ n ∈ [m] := by simp [Accepted.has]

theorem either_has (n m k : Nat) : (Accepted.either m k).has n = true ↔ n ∈ [m, k] := by simp [Accepted.has]

/-- Every command whose result record is an error of the front end, or else some rule's, fails admission as R103, R105 and R106 say. -/
theorem failsAdmission_of_admit (run : ArgKind → State → Answer) (rule : State → List Digit → Result) (a : Accepted)
    (lens : List Nat) (nl l0 l1 : Byte)
    (hrun : ∀ k s, run k s = finish s (match admission k a s.blk with | .error e => raise e | .ok ds => rule s ds))
    (hlens : ∀ n, a.has n = true ↔ n ∈ lens)
    (herr : raise (.lengthMismatch a) = { err := true, errcode := 3, errnl := nl, errl0 := l0, errl1 := l1 }) :
    FailsAdmission run lens nl l0 l1 where
  nonText := fun s => ⟨_, hrun .nonText s, completed_raise s .typeMismatch⟩
  length := fun s h => by
    have ha : a.has s.blk.linlen.toNat = false := by
      rw [← Bool.not_eq_true]; exact fun h' => h ((hlens _).1 h')
    refine ⟨_, hrun .text s, ?_⟩
    rw [admit_wrongLength a s.blk ha, ← herr]
    exact completed_raise s _
  nonDigit := fun s str k hl hlen hk => by
    refine ⟨_, hrun .text s, ?_⟩
    rw [admit_firstNonDigit a s.blk str k hl ((hlens _).2 hlen) hk]
    exact completed_raise s (.nonDigit k)

/-- The check value of an accumulator is at most 10 (R30). -/
theorem check_le (ten : Bool) (acc : Byte) : (check ten acc).toNat ≤ 10 := by
  rw [check_toNat]; exact checkValue_le ten _

/-- The check string of a payload's check value (R124). -/
theorem chkstr_payload (ten : Bool) (v : Variant) (ds : List Digit) :
    chkstr (check ten (payloadAccum v ds)) = checkString (checkValue ten (weightedSum v ds)) := by
  rw [chkstr_eq _ (check_le _ _), check_payloadAccum]

/-- `CHECKSUM`'s record on an admitted operand (R125). -/
theorem checksumResult_digits (v : Variant) (s : State) (ds : List Digit) (hl : Latched s.blk (digitString ds))
    (hlen : ds.length = payloadLen v) :
    checksumResult v .text s =
      { acc := payloadAccum v ds, chk := check s.cfg.checkTen (payloadAccum v ds)
        out := checkString (checkValue s.cfg.checkTen (weightedSum v ds)) } := by
  rw [checksumResult, admit_digits _ _ ds hl ((single_has _ _).2 (by simp [hlen]))]
  simp only [chkstr_payload]

/-- `ISVALID`'s record on an admitted operand (R126). -/
theorem isvalidResult_digits (v : Variant) (s : State) (ds : List Digit) (hl : Latched s.blk (digitString ds))
    (hlen : ds.length = fullLen v) :
    isvalidResult v .text s =
      { valid := checkMatches v (check s.cfg.checkTen (payloadAccum v ds)) ds
        acc := payloadAccum v ds, chk := check s.cfg.checkTen (payloadAccum v ds) } := by
  rw [isvalidResult, admit_digits _ _ ds hl ((single_has _ _).2 (by simp [hlen]))]

/-- `FIX`'s record on an admitted operand (R127). -/
theorem fixResult_digits (v : Variant) (s : State) (ds : List Digit) (hl : Latched s.blk (digitString ds))
    (hlen : ds.length = payloadLen v ∨ ds.length = fullLen v) :
    fixResult v .text s =
      { acc := payloadAccum v ds, chk := check s.cfg.checkTen (payloadAccum v ds)
        out := (digitString ds).take (payloadLen v) ++ checkString (checkValue s.cfg.checkTen (weightedSum v ds)) } := by
  rw [fixResult, admit_digits _ _ ds hl ((either_has _ _ _).2 (by simpa using hlen)), operand_of_latched _ _ hl]
  simp only [chkstr_payload]

/-- `ENCODE.NV`'s record on an admitted operand (R161). -/
theorem encodeResult_nv (v : Variant) (s : State) (ds : List Digit) (hl : Latched s.blk (digitString ds))
    (hlen : ds.length = fullLen v) : encodeResult v true .text s = { out := fontenc s.cfg v ds } := by
  rw [encodeResult, admit_digits _ _ ds hl ((single_has _ _).2 (by simp [hlen]))]

/-- `ENCODE`'s record on an admitted operand whose check digit is right (R161). -/
theorem encodeResult_right (v : Variant) (s : State) (ds : List Digit) (hl : Latched s.blk (digitString ds))
    (hlen : ds.length = fullLen v) (hc : CheckDigitRight s.cfg.checkTen v ds) :
    encodeResult v false .text s =
      { acc := payloadAccum v ds, chk := check s.cfg.checkTen (payloadAccum v ds), out := fontenc s.cfg v ds } := by
  rw [encodeResult, admit_digits _ _ ds hl ((single_has _ _).2 (by simp [hlen]))]
  simp only [(checkMatches_iff _ _ _).2 hc, if_true]

/-- `ENCODE`'s record on an admitted operand whose check digit is wrong (R161). -/
theorem encodeResult_wrong (v : Variant) (s : State) (ds : List Digit) (hl : Latched s.blk (digitString ds))
    (hlen : ds.length = fullLen v) (hc : ¬ CheckDigitRight s.cfg.checkTen v ds) :
    encodeResult v false .text s =
      raise (.invalidBarcode (payloadAccum v ds) (check s.cfg.checkTen (payloadAccum v ds))) := by
  rw [encodeResult, admit_digits _ _ ds hl ((single_has _ _).2 (by simp [hlen]))]
  simp only
  rw [if_neg fun h => hc ((checkMatches_iff _ _ _).1 h)]

/-- What a command reads beside its operand kind is `LINLEN`, `LIN` and the constants (R60). -/
theorem commandResult_congr (i : Instr) (s s' : State) (hlen : s.blk.linlen = s'.blk.linlen) (hlin : s.blk.lin = s'.blk.lin)
    (hcfg : s.cfg = s'.cfg) : commandResult i s = commandResult i s' := by
  have hop : operand s.blk = operand s'.blk := by simp [operand, hlen, hlin]
  have had : ∀ k a, admission k a s.blk = admission k a s'.blk := by intro k a; cases k <;> simp [admission, hop, hlen]
  cases i <;> simp only [commandResult, checksumResult, isvalidResult, fixResult, encodeResult, had, hop, hcfg]

end Sys2Proof.Machine
end

