-- ==== Sys2Proof/Laws/PerInstr.lean ====
section
/-! SUPPORT. Statements about every command as syntax, one lemma per constructor. -/

namespace Sys2Proof.Laws.RoundTrip

/-- The command is well formed, and its word decodes to it (R70 to R76). -/
def Statement (i : Instr) : Prop := i.wf = true ∧ decode (encode i) = .ok i

theorem checksumEan13 (k : ArgKind) : Statement (.checksumEan13 k) := by cases k <;> exact ⟨rfl, rfl⟩

theorem isvalidEan13 (k : ArgKind) : Statement (.isvalidEan13 k) := by cases k <;> exact ⟨rfl, rfl⟩

theorem fixEan13 (k : ArgKind) : Statement (.fixEan13 k) := by cases k <;> exact ⟨rfl, rfl⟩

theorem encodeEan13 (nv : Bool) (k : ArgKind) : Statement (.encodeEan13 nv k) := by
  cases nv <;> cases k <;> exact ⟨rfl, rfl⟩

theorem checksumEan8 (k : ArgKind) : Statement (.checksumEan8 k) := by cases k <;> exact ⟨rfl, rfl⟩

theorem isvalidEan8 (k : ArgKind) : Statement (.isvalidEan8 k) := by cases k <;> exact ⟨rfl, rfl⟩

theorem fixEan8 (k : ArgKind) : Statement (.fixEan8 k) := by cases k <;> exact ⟨rfl, rfl⟩

theorem encodeEan8 (nv : Bool) (k : ArgKind) : Statement (.encodeEan8 nv k) := by
  cases nv <;> cases k <;> exact ⟨rfl, rfl⟩

end Sys2Proof.Laws.RoundTrip
end

