-- ==== Sys2Proof/Laws/Port.lean ====
section
/-! SUPPORT. The register window: the map (R51), its reads (R55) and its writes (R56 to R59). -/

namespace Sys2Proof.Machine

/-- Offset 0x10 + i is `IN[i]` (R51). -/
theorem regAt_inByte (i : Fin 16) : regAt (BitVec.ofNat 6 (0x10 + i.val)) = .inByte i := by
  revert i; decide

/-- Offset 0x20 + i is `OUT[i]` (R51). -/
theorem regAt_outByte (i : Fin 32) : regAt (BitVec.ofNat 6 (0x20 + i.val)) = .outByte i := by
  revert i; decide

/-- The reserved offsets (R34). -/
theorem regAt_reserved (off : Offset) (h : 0x0A ≤ off.toNat) (h' : off.toNat ≤ 0x0F) : regAt off = .reserved := by
  revert off; decide

/-- The offsets a host write never changes a register at (R57). -/
theorem writeReg_readOnly (off : Offset) (v : Byte) (b : Block)
    (h : (0x02 ≤ off.toNat ∧ off.toNat ≤ 0x05) ∨ (0x07 ≤ off.toNat ∧ off.toNat ≤ 0x0F) ∨ 0x20 ≤ off.toNat) :
    writeReg off v b = b := by
  have : ∀ o : Offset, ((0x02 ≤ o.toNat ∧ o.toNat ≤ 0x05) ∨ (0x07 ≤ o.toNat ∧ o.toNat ≤ 0x0F) ∨ 0x20 ≤ o.toNat) →
      regAt o ≠ .cmd ∧ regAt o ≠ .status ∧ regAt o ≠ .inlen ∧ ∀ i : Fin 16, regAt o ≠ .inByte i := by decide
  obtain ⟨h1, h2, h3, h4⟩ := this off h
  unfold writeReg
  split <;> first | rfl | simp_all

/-- A host write of an operand byte (R56). -/
theorem writeReg_inByte (i : Fin 16) (v : Byte) (b : Block) :
    writeReg (BitVec.ofNat 6 (0x10 + i.val)) v b = { b with inBuf := b.inBuf.set i v } := by
  rw [writeReg, regAt_inByte]

theorem writeReg_inlen (v : Byte) (b : Block) : writeReg 0x06 v b = { b with inlen := v } := rfl

theorem writeReg_status (v : Byte) (b : Block) : writeReg 0x01 v b = writeStatus v b := rfl

theorem writeReg_cmd (v : Byte) (b : Block) : writeReg 0x00 v b = if b.busy then dropIssue b else issue v b := rfl

/-- Everything a host write can do to the block (R56 to R59). -/
theorem writeReg_cases (off : Offset) (v : Byte) (b : Block) :
    (off = 0x00 ∧ b.busy = true ∧ writeReg off v b = dropIssue b) ∨
    (off = 0x00 ∧ b.busy = false ∧ writeReg off v b = issue v b) ∨
    (off = 0x01 ∧ writeReg off v b = writeStatus v b) ∨
    (off = 0x06 ∧ writeReg off v b = { b with inlen := v }) ∨
    (∃ i : Fin 16, off = BitVec.ofNat 6 (0x10 + i.val) ∧ writeReg off v b = { b with inBuf := b.inBuf.set i v }) ∨
    writeReg off v b = b := by
  have hmap : ∀ o : Offset, o = 0x00 ∨ o = 0x01 ∨ o = 0x06 ∨ (∃ i : Fin 16, o = BitVec.ofNat 6 (0x10 + i.val)) ∨
      ((0x02 ≤ o.toNat ∧ o.toNat ≤ 0x05) ∨ (0x07 ≤ o.toNat ∧ o.toNat ≤ 0x0F) ∨ 0x20 ≤ o.toNat) := by decide
  obtain rfl | rfl | rfl | ⟨i, rfl⟩ | h := hmap off
  · cases hb : b.busy
    · exact .inr (.inl ⟨rfl, rfl, by rw [writeReg_cmd, hb]; rfl⟩)
    · exact .inl ⟨rfl, rfl, by rw [writeReg_cmd, hb]; rfl⟩
  · exact .inr (.inr (.inl ⟨rfl, rfl⟩))
  · exact .inr (.inr (.inr (.inl ⟨rfl, rfl⟩)))
  · exact .inr (.inr (.inr (.inr (.inl ⟨i, rfl, writeReg_inByte i v b⟩))))
  · exact .inr (.inr (.inr (.inr (.inr (writeReg_readOnly off v b h)))))

end Sys2Proof.Machine
end

