-- ==== Sys2Proof/Laws/Step.lean ====
section
/-! SUPPORT. What a step can do: one inversion lemma, and one equation for each agent that moves. -/

namespace Sys2Proof.Machine

theorem mover_engine (s : State) (h : EngineMoves s) : mover s = .engine := by
  obtain ⟨hb, ⟨ts, ht⟩ | ht⟩ := h <;> simp [mover, ht, hb]

theorem mover_host (s : State) (h : HostMoves s) : mover s = .host := by
  obtain ⟨ts, ht⟩ | ⟨ht, hb⟩ := h
  · simp [mover, ht]
  · simp [mover, ht, hb]

theorem mover_reset (s : State) (h : ResetMoves s) : mover s = .reset := by
  obtain ⟨ts, ht⟩ := h
  simp [mover, ht]

/-- Who moves, in every state: the engine with a command, the host, the reset input, or the engine without a command. -/
theorem moves_cases (s : State) :
    EngineMoves s ∨ HostMoves s ∨ ResetMoves s ∨ (s.blk.busy = false ∧ ∃ ts, s.env.turns = .engine :: ts) := by
  cases ht : s.env.turns with
  | nil =>
    cases hb : s.blk.busy with
    | true => exact .inl ⟨hb, .inr ht⟩
    | false => exact .inr (.inl (.inr ⟨ht, hb⟩))
  | cons t ts =>
    cases t with
    | host => exact .inr (.inl (.inl ⟨ts, ht⟩))
    | reset => exact .inr (.inr (.inl ⟨ts, ht⟩))
    | engine =>
      cases hb : s.blk.busy with
      | true => exact .inl ⟨hb, .inl ⟨ts, ht⟩⟩
      | false => exact .inr (.inr (.inr ⟨rfl, ts, rfl⟩))

/-- The result record the engine's step writes for the command in flight (R60, R101). -/
def flightResult (s : State) : Result :=
  match decode s.blk.lcmd with
  | .ok i => commandResult i s
  | .error _ => raise .illegalCmd

/-- The engine's step completes the command in flight (R60). -/
theorem step_engine (s : State) (h : EngineMoves s) :
    step s = .next { takeTurn s with blk := complete (flightResult (takeTurn s)) s.blk } := by
  have hb : (takeTurn s).blk.busy = true := h.1
  rw [step, mover_engine s h]
  simp only [engineTurn, commandInFlight, hb, if_true, flightResult]
  cases decode (takeTurn s).blk.lcmd with
  | ok i => exact exec_eq i (takeTurn s)
  | error r => rfl

theorem step_host (s : State) (h : HostMoves s) : step s = hostTurn (takeTurn s) := by
  rw [step, mover_host s h]

theorem step_reset (s : State) (h : ResetMoves s) : step s = .next (resetBlock (takeTurn s)) := by
  rw [step, mover_reset s h]

/-- An engine's turn without a command passes. -/
theorem step_idle_engine (s : State) (ts : List Turn) (hb : s.blk.busy = false) (ht : s.env.turns = .engine :: ts) :
    step s = .next (takeTurn s) := by
  have hm : mover s = .engine := by simp [mover, ht]
  simp [step, hm, engineTurn, commandInFlight, hb]

/-- A host's turn with nothing to do passes. -/
theorem step_idle_host (s : State) (h : HostMoves s) (ho : s.env.ops = []) : step s = .next (takeTurn s) := by
  rw [step_host s h]
  simp only [hostTurn, takeTurn, ho]

/-- Everything the host's turn can do. -/
theorem hostTurn_cases (s t : State) (h : hostTurn s = .next t) :
    (s.env.ops = [] ∧ t = s) ∨
    (∃ off rest, t = hostRead off rest s) ∨
    (∃ off v rest, s.env.ops = .write off v :: rest ∧ t = hostWrite off v rest s) := by
  unfold hostTurn at h
  split at h
  · cases h; exact .inl ⟨‹_›, rfl⟩
  · cases h; exact .inr (.inl ⟨_, _, rfl⟩)
  · cases h; exact .inr (.inr ⟨_, _, _, ‹_›, rfl⟩)
  · cases h; exact .inr (.inl ⟨_, _, rfl⟩)
  · cases h; exact .inr (.inl ⟨_, _, rfl⟩)
  · cases h

/-- While a command is in flight, a host's turn changes `INLEN`, `IN` and `OVR` of the block only (R63). -/
theorem hostTurn_busy_blk (s t : State) (hb : s.blk.busy = true) (h : hostTurn s = .next t) :
    t.blk = { s.blk with inlen := t.blk.inlen, inBuf := t.blk.inBuf, ovr := t.blk.ovr } := by
  obtain ⟨-, rfl⟩ | ⟨off, rest, rfl⟩ | ⟨off, v, rest, -, rfl⟩ := hostTurn_cases s t h
  · rfl
  · rfl
  · rw [hostWrite_blk, writeReg]
    cases regAt off with
    | cmd => rw [if_pos hb]; rfl
    | _ => rfl

/-- A host that has `n + 1` turns moves now. -/
theorem HostHasTurns.moves {n : Nat} {s : State} (h : HostHasTurns (n + 1) s) : HostMoves s := by
  obtain ⟨hall, hlen⟩ := h
  cases ht : s.env.turns with
  | nil => exact .inr ⟨ht, by simpa [ht] using hlen⟩
  | cons t ts => exact .inl ⟨ts, by rw [ht, hall t (by simp [ht])]⟩

/-- A step in which the host moves and `BUSY` stays leaves it one turn less. -/
theorem HostHasTurns.tail {n : Nat} {s t : State} (h : HostHasTurns (n + 1) s) (hb : t.blk.busy = s.blk.busy)
    (ht : t.env.turns = s.env.turns.tail) : HostHasTurns n t := by
  obtain ⟨hall, hlen⟩ := h
  rw [HostHasTurns, ht, hb]
  cases hs : s.env.turns with
  | nil => exact ⟨by simp, .inr (by simpa [hs] using hlen)⟩
  | cons u us =>
    rw [hs] at hall hlen
    exact ⟨fun x hx => hall x (by simp [show x ∈ us.take n from hx]), hlen.imp (by simp) id⟩

/-- Everything a step can do when it answers a next state: complete the command in flight, reset the block, make a host write, or
leave the block as it is. The constants never change. -/
theorem step_cases (s t : State) (h : step s = .next t) :
    t.cfg = s.cfg ∧
    ((EngineMoves s ∧ t.blk = complete (flightResult (takeTurn s)) s.blk) ∨
      (ResetMoves s ∧ t.blk = Block.reset) ∨
      (HostMoves s ∧ ∃ off v rest, s.env.ops = .write off v :: rest ∧ t.blk = writeReg off v s.blk) ∨
      (¬ EngineMoves s ∧ ¬ ResetMoves s ∧ t.blk = s.blk)) := by
  have hER : ∀ s : State, HostMoves s → ¬ EngineMoves s ∧ ¬ ResetMoves s := by
    intro s hh
    have := mover_host s hh
    constructor
    · intro he; rw [mover_engine s he] at this; cases this
    · intro hr; rw [mover_reset s hr] at this; cases this
  obtain he | hh | hr | ⟨hb, ts, ht⟩ := moves_cases s
  · rw [step_engine s he] at h
    cases h
    exact ⟨rfl, .inl ⟨he, rfl⟩⟩
  · rw [step_host s hh] at h
    obtain ⟨-, rfl⟩ | ⟨off, rest, rfl⟩ | ⟨off, v, rest, hops, rfl⟩ := hostTurn_cases _ _ h
    · exact ⟨rfl, .inr (.inr (.inr ⟨(hER s hh).1, (hER s hh).2, rfl⟩))⟩
    · exact ⟨rfl, .inr (.inr (.inr ⟨(hER s hh).1, (hER s hh).2, rfl⟩))⟩
    · exact ⟨rfl, .inr (.inr (.inl ⟨hh, off, v, rest, hops, rfl⟩))⟩
  · rw [step_reset s hr] at h
    cases h
    exact ⟨rfl, .inr (.inl ⟨hr, rfl⟩)⟩
  · rw [step_idle_engine s ts hb ht] at h
    cases h
    refine ⟨rfl, .inr (.inr (.inr ⟨fun he => ?_, fun hr => ?_, rfl⟩))⟩
    · have := he.1; rw [hb] at this; cases this
    · obtain ⟨ts', ht'⟩ := hr; rw [ht] at ht'; cases ht'

end Sys2Proof.Machine
end

