-- ==== Sys2Proof/Tests/Slice0.lean ====
section
/-! SUPPORT. The model's own tests: every check of WellFormed refuses an ill-formed term, the spec's words decode, single steps give
the spec's vectors (spec/95_test_vectors.md), and every statement's hypotheses are met. -/

open Sys2Proof Sys2Proof.Machine

/-! ## WellFormed refuses -/

/-- V-AD1: `VAR = 2`. -/
theorem test_wf_refuses_reserved_variant : (splitFields 0x08).wf = false ∧ (splitFields 0x08).variantDefined = false := by decide

/-- V-AD3, V-AD4: `RSV` not 0. -/
theorem test_wf_refuses_reserved_bits :
    (splitFields 0x40).reservedZero = false ∧ (splitFields 0x80).wf = false ∧ (splitFields 0x40).wf = false := by decide

/-- V-AD5, V-AD7: `NV` with an operation other than `ENCODE`. -/
theorem test_wf_refuses_nv_without_encode : (splitFields 0x10).nvAllowed = false ∧ (splitFields 0x12).wf = false := by decide

/-- R157: a configuration whose EAN-13 table B has another symbol for 6 is refused. -/
theorem test_wf_refuses_vector13 :
    (let c := Config.default
     { c with font13 := { c.font13 with ts := c.font13.ts.set 2 (Config.alphabet 0x41) } }).vector13 = false := by decide

/-- R157: a configuration whose EAN-8 first table lacks the delimiter is refused. -/
theorem test_wf_refuses_vector8 :
    (let c := Config.default
     { c with font8 := { c.font8 with ts := c.font8.ts.set 0 (Config.alphabet 0x41) } }).vector8 = false := by decide

/-- R156: a configuration with two different EAN-8 rows is refused. -/
theorem test_wf_refuses_rows8 :
    (let c := Config.default
     { c with font8 := { c.font8 with ord := c.font8.ord.set 9 #v[0, 1, 1, 1, 2, 3, 3, 3] } }).wf = false := by decide

/-- The default constants are well formed with either setting of `P_CHECK_TEN`. -/
theorem test_default_config_wf : Config.default.wf = true ∧ ({ Config.default with checkTen := true } : Config).wf = true := by decide

/-! ## Decoding: words written out from R70 (RSV ARGK NV VAR OP) -/

theorem test_decode_checksum : decode 0b00000000#8 = .ok (.checksumEan13 .text) ∧ decode 0b00100100#8 = .ok (.checksumEan8 .nonText) :=
  ⟨rfl, rfl⟩

theorem test_decode_isvalid : decode 0b00100001#8 = .ok (.isvalidEan13 .nonText) ∧ decode 0b00000101#8 = .ok (.isvalidEan8 .text) :=
  ⟨rfl, rfl⟩

theorem test_decode_fix : decode 0b00000010#8 = .ok (.fixEan13 .text) ∧ decode 0b00100110#8 = .ok (.fixEan8 .nonText) :=
  ⟨rfl, rfl⟩

theorem test_decode_encode :
    decode 0b00010011#8 = .ok (.encodeEan13 true .text) ∧ decode 0b00110111#8 = .ok (.encodeEan8 true .nonText) :=
  ⟨rfl, rfl⟩

/-- V-AD2, V-AD6, V-AD9, V-AD10. -/
theorem test_decode_rejects :
    decode 0x0C = .error .reservedVariant ∧ decode 0x11 = .error .nvWithoutEncode ∧ decode 0x28 = .error .reservedVariant ∧
    decode 0xFF = .error .reservedVariant ∧ decode 0xC0 = .error .reservedBits :=
  ⟨rfl, rfl, rfl, rfl, rfl⟩

theorem test_table_word : decodeTableWord 8 0x07 = some (.encodeEan8 false .text) ∧ decodeTableWord 8 0x107 = none := ⟨rfl, rfl⟩

/-! ## One step of the engine: the source's vectors and derived ones -/

/-- The command `w` in flight on the operand `str`, with `P_CHECK_TEN = ten`. -/
def inFlight (ten : Bool) (w : Byte) (str : List Byte) : State :=
  { State.reset with
    cfg := { Config.default with checkTen := ten }
    blk := { Block.reset with
      lcmd := w, busy := true, linlen := BitVec.ofNat 8 str.length, lin := ⟨⟨padTo 16 str⟩, padTo_length 16 str⟩ } }

theorem inFlight_cfg (ten : Bool) (w : Byte) (str : List Byte) :
    (inFlight ten w str).cfg = { Config.default with checkTen := ten } := rfl

/-- The state a step answers. -/
def answer (o : Answer) : Option State :=
  match o with
  | .next s => some s
  | _ => none

/-- `STATUS`, `ERRCODE`, `ERRNL`, `ERRL0`, `ERRL1`, `ACC`, `CHK`, and the result string, after one step. -/
def results (ten : Bool) (w : Byte) (str : List Byte) : Option (List (List Byte)) :=
  (answer (step (inFlight ten w str))).map fun t =>
    [[statusByte t.blk, t.blk.errcode, t.blk.errnl, t.blk.errl0, t.blk.errl1, t.blk.acc, t.blk.chk], outString t.blk]

/-- S1. -/
theorem test_checksumEan13 : results false 0x00 (ascii "505650128715") = some [[0x02, 0, 0, 0, 0, 85, 5], ascii "5"] := by decide

/-- V-CS18: a nonzero multiple of 10 with `P_CHECK_TEN`. -/
theorem test_checksumEan13_ten : results true 0x00 (ascii "000000000013") = some [[0x02, 0, 0, 0, 0, 10, 10], ascii "10"] := by decide

/-- V-CS13: the last position of an EAN-8 payload has weight 3. -/
theorem test_checksumEan8 : results false 0x04 (ascii "0000001") = some [[0x02, 0, 0, 0, 0, 3, 7], ascii "7"] := by decide

/-- V-AD28: a length above 16. -/
theorem test_checksum_long : results false 0x00 (List.replicate 20 0x35) = some [[0x06, 3, 1, 12, 0, 0, 0], []] := by decide

/-- V-IV2: a mismatch is no error. -/
theorem test_isvalidEan13_mismatch : results false 0x01 (ascii "5056501287154") = some [[0x02, 0, 0, 0, 0, 85, 5], []] := by decide

/-- V-AD34: a check character that is no digit is an error. -/
theorem test_isvalidEan13_nonDigit : results false 0x01 (ascii "505650128715X") = some [[0x06, 4, 0, 12, 0, 0, 0], []] := by decide

/-- V-IV10. -/
theorem test_isvalidEan8 : results false 0x05 (ascii "12345670") = some [[0x0A, 0, 0, 0, 0, 60, 0], []] := by decide

/-- V-IV13: with `P_CHECK_TEN` the same barcode is not valid. -/
theorem test_isvalidEan8_ten : results true 0x05 (ascii "12345670") = some [[0x02, 0, 0, 0, 0, 60, 10], []] := by decide

/-- S4. -/
theorem test_fixEan13 : results false 0x02 (ascii "3160584741641") = some [[0x02, 0, 0, 0, 0, 91, 9], ascii "3160584741649"] := by decide

/-- S11: both accepted lengths are reported. -/
theorem test_fixEan13_length : results false 0x02 (ascii "12345678910123") = some [[0x06, 3, 2, 12, 13, 0, 0], []] := by decide

/-- S7. -/
theorem test_fixEan8 : results false 0x06 (ascii "4719512") = some [[0x02, 0, 0, 0, 0, 53, 7], ascii "47195127"] := by decide

/-- V-FX11: one byte more than the full length. -/
theorem test_fixEan8_ten : results true 0x06 (ascii "12345670") = some [[0x02, 0, 0, 0, 0, 60, 10], ascii "123456710"] := by decide

/-- S5. -/
theorem test_encodeEan13 : results false 0x03 (ascii "5056501287155") = some [[0x02, 0, 0, 0, 0, 85, 5], ascii "5APQFAL*cihbff+"] := by decide

/-- V-EN1: `INVALID_BARCODE` keeps the sum and the check value. -/
theorem test_encodeEan13_invalid : results false 0x03 (ascii "5056501287154") = some [[0x06, 5, 0, 0, 0, 85, 5], []] := by decide

/-- S8. -/
theorem test_encodeEan8 : results false 0x07 (ascii "47195127") = some [[0x02, 0, 0, 0, 0, 53, 7], ascii ":EHBJ*fbch+"] := by decide

/-- V-EN41 (the last symbol is a default, G1). -/
theorem test_encodeEan8_nv : results false 0x17 (ascii "47195120") = some [[0x02, 0, 0, 0, 0, 0, 0], ascii ":EHBJ*fbca+"] := by decide

/-- V-AD9: an illegal word with `ARGK = 1` is illegal. -/
theorem test_illegal_word : results false 0x28 (ascii "505650128715") = some [[0x06, 1, 0, 0, 0, 0, 0], []] := by decide

/-- S9, S10: the first step after reset runs the word placed for it; `INLEN` is 0 there (R253). -/
theorem test_fetch_word_at_reset :
    ((answer (step (State.reset.withFetchWord 8 0x20))).map fun t => [statusByte t.blk, t.blk.errcode]) = some [0x06, 2] ∧
    ((answer (step (State.reset.withFetchWord 8 0x00))).map fun t => [statusByte t.blk, t.blk.errcode, t.blk.errnl, t.blk.errl0]) =
      some [0x06, 3, 1, 12] := by decide

/-! ## One step of the host -/

/-- A host about to do `op`, in the state `s`, on its own turn. -/
def hostAbout (s : State) (op : HostOp) : State := { s with env := { turns := [.host], ops := [op], reads := [] } }

/-- V-PT4: an issue sets `BUSY` and latches. -/
theorem test_issue :
    ((answer (step (hostAbout State.reset (.write 0x00 0x03)))).map fun t => [statusByte t.blk, t.blk.lcmd]) = some [0x01, 0x03] := by decide

/-- V-PT5: a `CMD` write while busy sets `OVR` and is not latched. -/
theorem test_dropped_issue :
    ((answer (step (hostAbout (inFlight false 0x03 (ascii "5056501287155")) (.write 0x00 0x01)))).map
      fun t => [statusByte t.blk, t.blk.lcmd]) = some [0x11, 0x03] := by decide

/-- V-PT7, V-PT8: bit 4 alone clears `OVR`. -/
theorem test_clear_ovr :
    statusByte (writeStatus 0xEF { Block.reset with done := true, ovr := true }) = 0x12 ∧
    statusByte (writeStatus 0x10 { Block.reset with done := true, ovr := true }) = 0x02 := by decide

/-- V-PT6: a write to `IN[12]` while busy reaches `IN`, not the latch. -/
theorem test_operand_write_while_busy :
    ((answer (step (hostAbout (inFlight false 0x03 (ascii "5056501287155")) (.write 0x1C 0x34)))).map
      fun t => [t.blk.inBuf[12], t.blk.lin[12]]) = some [0x34, 0x35] := by decide

/-- V-PT1: reserved offsets read 0. -/
theorem test_reserved_reads : readReg 0x0A Block.reset = 0 ∧ readReg 0x0F Block.reset = 0 := by decide

/-- P1: the transactions of `LOADSTR`. -/
theorem test_loadStr : loadStr (ascii "12") = [.write 0x06 0x02, .write 0x10 0x31, .write 0x11 0x32] := by decide

/-- R214's examples. -/
theorem test_messages :
    requiredSubstring { Block.reset with errcode := 3, errnl := 1, errl0 := 12 } = some (ascii "must be 12 characters long") ∧
    requiredSubstring { Block.reset with errcode := 3, errnl := 2, errl0 := 7, errl1 := 8 } =
      some (ascii "must be either of [7,8] characters long") := by decide

/-! ## Witnesses: every statement's hypotheses are met together -/

/-- A digit operand of length 12, 13, 7, 8 in flight. -/
theorem latched_inFlight :
    Latched (inFlight false 0x00 (ascii "505650128715")).blk (digitString [5, 0, 5, 6, 5, 0, 1, 2, 8, 7, 1, 5]) ∧
    Latched (inFlight false 0x01 (ascii "5056501287155")).blk (digitString [5, 0, 5, 6, 5, 0, 1, 2, 8, 7, 1, 5, 5]) ∧
    Latched (inFlight false 0x04 (ascii "4719512")).blk (digitString [4, 7, 1, 9, 5, 1, 2]) ∧
    Latched (inFlight false 0x05 (ascii "47195127")).blk (digitString [4, 7, 1, 9, 5, 1, 2, 7]) := by
  unfold Latched; decide

theorem engineMoves_inFlight (ten : Bool) (w : Byte) (str : List Byte) : EngineMoves (inFlight ten w str) := ⟨rfl, .inr rfl⟩

theorem hostMoves_hostAbout (s : State) (op : HostOp) : HostMoves (hostAbout s op) := .inl ⟨[], rfl⟩

theorem witness_DecodeAndEncodeAgree : decode 0x33 = .ok (.encodeEan13 true .nonText) := rfl

theorem witness_StepRunsDecodedCommand :
    EngineMoves (inFlight false 0x17 (ascii "47195120")) ∧
    decode (inFlight false 0x17 (ascii "47195120")).blk.lcmd = .ok (.encodeEan8 true .text) :=
  ⟨engineMoves_inFlight _ _ _, rfl⟩

theorem witness_FetchWordRunsNext : decodeTableWord 8 0x37 = some (.encodeEan8 true .nonText) := rfl

theorem witness_IllegalWordEndsInIllegalCmd :
    EngineMoves (inFlight false 0x08 []) ∧ IllegalWord (inFlight false 0x08 []).blk.lcmd ∧ IllegalWord 0x0C ∧ IllegalWord 0x40 ∧
    IllegalWord 0xC3 ∧ IllegalWord 0x10 ∧ IllegalWord 0x36 ∧ ¬ IllegalWord 0x13 :=
  ⟨engineMoves_inFlight _ _ _, by unfold IllegalWord; decide⟩

theorem witness_IdleBlockHoldsItsState :
    (let s : State := { State.reset with env := { turns := [.engine], ops := [], reads := [] } }
     s.blk.busy = false ∧ s.env.turns = .engine :: []) ∧
    (let s : State := { inFlight false 0x03 [] with env := { turns := [.host], ops := [], reads := [] } }
     HostMoves s ∧ s.env.ops = []) ∧
    (let s : State := { State.reset with env := { turns := [.host, .engine, .host], ops := [], reads := [] } }
     s.blk.busy = false ∧ s.env.ops = [] ∧ .reset ∉ s.env.turns) :=
  ⟨by decide, ⟨.inl ⟨[], rfl⟩, rfl⟩, by decide⟩

theorem witness_ResetInputResetsTheBlock :
    (let s : State := { inFlight false 0x03 (ascii "5056501287155") with env := { turns := [.reset, .host], ops := [], reads := [] } }
     s.env.turns = .reset :: [.host] ∧ s.blk.busy = true) := by decide

theorem witness_HostReadReturnsTheRegister :
    (HostMoves (hostAbout State.reset (.read 0x3F)) ∧ (hostAbout State.reset (.read 0x3F)).env.ops = .read 0x3F :: []) ∧
    (HostMoves (hostAbout (inFlight false 0x03 []) .pollDone) ∧
      (hostAbout (inFlight false 0x03 []) .pollDone).env.ops = .pollDone :: []) ∧
    (HostMoves (hostAbout (inFlight false 0x03 []) .readOutLen) ∧
      (hostAbout (inFlight false 0x03 []) .readOutLen).env.ops = .readOutLen :: []) ∧
    0x0A ≤ (0x0A : Offset).toNat ∧ (0x0A : Offset).toNat ≤ 0x0F ∧ 0x0A ≤ (0x0F : Offset).toNat ∧ (0x0F : Offset).toNat ≤ 0x0F :=
  ⟨⟨hostMoves_hostAbout _ _, rfl⟩, ⟨hostMoves_hostAbout _ _, rfl⟩, ⟨hostMoves_hostAbout _ _, rfl⟩, by decide⟩

theorem witness_HostTurnIsOneTransaction :
    (HostMoves (hostAbout State.reset (.read 0x00)) ∧ (hostAbout State.reset (.read 0x00)).env.ops = .read 0x00 :: []) ∧
    HostMoves (hostAbout State.reset (.write 0x3F 1)) ∧ (hostAbout State.reset (.write 0x3F 1)).env.ops = .write 0x3F 1 :: [] :=
  ⟨⟨hostMoves_hostAbout _ _, rfl⟩, hostMoves_hostAbout _ _, rfl⟩

theorem witness_OperandWriteTakesTheByte :
    (HostMoves (hostAbout (inFlight false 0x00 []) (.write 0x06 0xFF)) ∧
      (hostAbout (inFlight false 0x00 []) (.write 0x06 0xFF)).env.ops = .write 0x06 0xFF :: []) ∧
    (HostMoves (hostAbout State.reset (.write 0x1F 0x39)) ∧
      (hostAbout State.reset (.write 0x1F 0x39)).env.ops = .write (BitVec.ofNat 6 (0x10 + (15 : Fin 16).val)) 0x39 :: []) ∧
    (hostAbout State.reset (.write 0x10 0x30)).env.ops = .write (BitVec.ofNat 6 (0x10 + (0 : Fin 16).val)) 0x30 :: [] :=
  ⟨⟨hostMoves_hostAbout _ _, rfl⟩, ⟨hostMoves_hostAbout _ _, rfl⟩, rfl⟩

theorem witness_ReadOnlyWriteIsIgnored :
    HostMoves (hostAbout State.reset (.write 0x07 0x55)) ∧
    ∀ off ∈ ([0x02, 0x05, 0x07, 0x0F, 0x20, 0x3F] : List Offset), (hostAbout State.reset (.write off 0x55)).env.ops = .write off 0x55 :: [] ∧
      ((0x02 ≤ off.toNat ∧ off.toNat ≤ 0x05) ∨ (0x07 ≤ off.toNat ∧ off.toNat ≤ 0x0F) ∨ 0x20 ≤ off.toNat) :=
  ⟨hostMoves_hostAbout _ _, by decide⟩

theorem witness_StatusWriteClearsOvrOnly :
    HostMoves (hostAbout State.reset (.write 0x01 0x10)) ∧ (hostAbout State.reset (.write 0x01 0x10)).env.ops = .write 0x01 0x10 :: [] :=
  ⟨hostMoves_hostAbout _ _, rfl⟩

theorem witness_CmdWriteIssuesOrIsDropped :
    (HostMoves (hostAbout State.reset (.write 0x00 0xFF)) ∧ (hostAbout State.reset (.write 0x00 0xFF)).blk.busy = false) ∧
    HostMoves (hostAbout (inFlight false 0x03 []) (.write 0x00 0x01)) ∧ (hostAbout (inFlight false 0x03 []) (.write 0x00 0x01)).blk.busy = true :=
  ⟨⟨hostMoves_hostAbout _ _, rfl⟩, hostMoves_hostAbout _ _, rfl⟩

theorem witness_WindowWriteTouchesOneOffset :
    0x02 ≤ (0x02 : Offset).toNat ∧ (0x06 : Offset) ≠ 0x02 ∧ 0x02 ≤ (0x10 : Offset).toNat ∧ 0x02 ≤ (0x1F : Offset).toNat := by decide

theorem witness_WideAccessIsRefused :
    HostMoves (hostAbout State.reset (.wide 0x10 2)) ∧ (hostAbout State.reset (.wide 0x10 2)).env.ops = .wide 0x10 2 :: [] :=
  ⟨hostMoves_hostAbout _ _, rfl⟩

/-- Two states with the same latches, whose operand registers and earlier results differ. -/
theorem witness_CompletionReadsOnlyTheLatches :
    (let s := inFlight false 0x02 (ascii "505650128715")
     let s' : State := { s with blk := { s.blk with inlen := 7, acc := 99, ovr := true } }
     EngineMoves s ∧ EngineMoves s' ∧ s.blk.lcmd = s'.blk.lcmd ∧ s.blk.linlen = s'.blk.linlen ∧ s.blk.lin = s'.blk.lin ∧
       s.cfg = s'.cfg ∧ (∃ t, step s = .next t) ∧ ∃ t', step s' = .next t') :=
  ⟨⟨rfl, .inr rfl⟩, ⟨rfl, .inr rfl⟩, rfl, rfl, rfl, rfl, ⟨_, rfl⟩, ⟨_, rfl⟩⟩

/-- The first and the last character of an operand can be the first that is no digit (V-AD31, V-AD33). -/
theorem witness_firstNonDigit : FirstNonDigit (ascii "A05650128715") 0 ∧ FirstNonDigit (ascii "505650128715X") 12 := by
  refine ⟨⟨⟨0x41, rfl, by unfold IsDigit; decide⟩, fun j b hj _ => by omega⟩, ⟨⟨0x58, rfl, by unfold IsDigit; decide⟩, ?_⟩⟩
  have h : ∀ j : Fin 12, ∀ b ∈ (ascii "505650128715X")[j.val]?, 0x30 ≤ b.toNat ∧ b.toNat ≤ 0x39 := by decide
  exact fun j b hj hb => h ⟨j, hj⟩ b hb

theorem witness_FirstApplicableErrorIsReported :
    EngineMoves (inFlight false 0x22 (ascii "505650128715X")) ∧ argKind (.fixEan13 .nonText) = .nonText ∧
    decode 0x22 = .ok (.fixEan13 .nonText) ∧ decode 0x02 = .ok (.fixEan13 .text) ∧
    Latched (inFlight false 0x02 (ascii "505650128715X")).blk (ascii "505650128715X") ∧
    (ascii "505650128715X").length ∈ acceptedLens (.fixEan13 .text) ∧
    (inFlight false 0x02 []).blk.linlen.toNat ∉ acceptedLens (.fixEan13 .text) :=
  ⟨engineMoves_inFlight _ _ _, rfl, rfl, rfl, by unfold Latched; decide, by decide, by decide⟩

/-- The check digit 5 is right for S2's barcode, and 4 is not. -/
theorem witness_checkDigitRight :
    CheckDigitRight false .ean13 [5, 0, 5, 6, 5, 0, 1, 2, 8, 7, 1, 5, 5] ∧
    ¬ CheckDigitRight false .ean13 [5, 0, 5, 6, 5, 0, 1, 2, 8, 7, 1, 5, 4] ∧
    CheckDigitRight false .ean8 [4, 7, 1, 9, 5, 1, 2, 7] ∧ ¬ CheckDigitRight false .ean8 [4, 7, 1, 9, 5, 1, 2, 0] := by
  unfold CheckDigitRight; decide

/-- `FailsAdmission` and the results of `CHECKSUM`: wrong lengths 0 and 13, a non-digit, a digit string, for each variant. -/
theorem witness_ChecksumCompletes :
    (inFlight false 0x00 []).blk.linlen.toNat ∉ [12] ∧ (inFlight false 0x04 (ascii "47195127")).blk.linlen.toNat ∉ [7] ∧
    Latched (inFlight false 0x00 (ascii "A05650128715")).blk (ascii "A05650128715") ∧ (ascii "A05650128715").length ∈ [12] ∧
    ([5, 0, 5, 6, 5, 0, 1, 2, 8, 7, 1, 5] : List Digit).length = payloadLen .ean13 ∧
    ([4, 7, 1, 9, 5, 1, 2] : List Digit).length = payloadLen .ean8 := by
  unfold Latched; decide

theorem witness_IsvalidCompletes :
    (inFlight false 0x01 (ascii "505650128715")).blk.linlen.toNat ∉ [13] ∧ (inFlight false 0x05 []).blk.linlen.toNat ∉ [8] ∧
    Latched (inFlight false 0x01 (ascii "505650128715X")).blk (ascii "505650128715X") ∧ (ascii "505650128715X").length ∈ [13] ∧
    ([5, 0, 5, 6, 5, 0, 1, 2, 8, 7, 1, 5, 5] : List Digit).length = fullLen .ean13 ∧
    ([4, 7, 1, 9, 5, 1, 2, 7] : List Digit).length = fullLen .ean8 := by
  unfold Latched; decide

theorem witness_FixCompletes :
    (inFlight false 0x02 (ascii "12345678910123")).blk.linlen.toNat ∉ [12, 13] ∧ (inFlight false 0x06 []).blk.linlen.toNat ∉ [7, 8] ∧
    (([4, 7, 1, 9, 5, 1, 2] : List Digit).length = payloadLen .ean8 ∨ ([4, 7, 1, 9, 5, 1, 2] : List Digit).length = fullLen .ean8) ∧
    (([4, 7, 1, 9, 5, 1, 2, 7] : List Digit).length = payloadLen .ean8 ∨
      ([4, 7, 1, 9, 5, 1, 2, 7] : List Digit).length = fullLen .ean8) := by decide

/-- Both outcomes of a validated `ENCODE.EAN13` have an operand: S5 and V-EN1. -/
theorem witness_EncodeEan13Completes :
    (let d : Fin 13 → Digit := ![5, 0, 5, 6, 5, 0, 1, 2, 8, 7, 1, 5, 5]
     Latched (inFlight false 0x03 (ascii "5056501287155")).blk (digitString (List.ofFn d)) ∧ CheckDigitRight false .ean13 (List.ofFn d)) ∧
    (let d : Fin 13 → Digit := ![5, 0, 5, 6, 5, 0, 1, 2, 8, 7, 1, 5, 4]
     Latched (inFlight false 0x03 (ascii "5056501287154")).blk (digitString (List.ofFn d)) ∧
       ¬ CheckDigitRight false .ean13 (List.ofFn d)) := by
  unfold Latched CheckDigitRight; decide

/-- Both outcomes of a validated `ENCODE.EAN8` have an operand: S8 and V-EN34. -/
theorem witness_EncodeEan8Completes :
    (let d : Fin 8 → Digit := ![4, 7, 1, 9, 5, 1, 2, 7]
     Latched (inFlight false 0x07 (ascii "47195127")).blk (digitString (List.ofFn d)) ∧ CheckDigitRight false .ean8 (List.ofFn d)) ∧
    (let d : Fin 8 → Digit := ![4, 7, 1, 9, 5, 1, 2, 0]
     Latched (inFlight false 0x07 (ascii "47195120")).blk (digitString (List.ofFn d)) ∧ ¬ CheckDigitRight false .ean8 (List.ofFn d)) := by
  unfold Latched CheckDigitRight; decide

theorem witness_AccumulatorIsExact : (List.replicate 12 9 : List Digit).length = payloadLen .ean13 := rfl

theorem witness_ChecksumThenIsvalid :
    (inFlight false 0x00 (ascii "505650128715")).cfg.checkTen = false ∧
    Latched (inFlight false 0x00 (ascii "505650128715")).blk (digitString [5, 0, 5, 6, 5, 0, 1, 2, 8, 7, 1, 5]) ∧
    (inFlight false 0x01 (ascii "5056501287155")).cfg.checkTen = false ∧
    Latched (inFlight false 0x01 (ascii "5056501287155")).blk (digitString [5, 0, 5, 6, 5, 0, 1, 2, 8, 7, 1, 5] ++ [dchar 5]) := by
  unfold Latched; decide

theorem witness_FixRepairsTheLastDigit :
    (inFlight false 0x06 (ascii "47195120")).cfg = (inFlight false 0x05 (ascii "47195127")).cfg ∧
    Latched (inFlight false 0x05 (ascii "47195127")).blk (digitString [4, 7, 1, 9, 5, 1, 2] ++ [dchar 7]) ∧
    (∃ t, exec (isvalidOf .ean8 .text) (inFlight false 0x05 (ascii "47195127")) = .next t ∧ t.blk.valid = true) ∧
    Latched (inFlight false 0x06 (ascii "47195120")).blk (digitString [4, 7, 1, 9, 5, 1, 2] ++ [dchar 0]) ∧
    Latched (inFlight false 0x06 (ascii "4719512")).blk (digitString [4, 7, 1, 9, 5, 1, 2]) :=
  ⟨by rw [inFlight_cfg, inFlight_cfg], by unfold Latched; decide, ⟨_, exec_eq _ _, by decide⟩, by unfold Latched; decide, by unfold Latched; decide⟩

theorem witness_CheckTenAtMultiplesOfTen :
    weightedSum .ean8 [1, 2, 3, 4, 5, 6, 7] % 10 = 0 ∧
    Latched (inFlight true 0x04 (ascii "1234567")).blk (digitString [1, 2, 3, 4, 5, 6, 7]) ∧
    Latched (inFlight true 0x05 (ascii "12345670")).blk (digitString [1, 2, 3, 4, 5, 6, 7] ++ [dchar 0]) ∧
    Latched (inFlight true 0x05 (ascii "123456710")).blk (digitString [1, 2, 3, 4, 5, 6, 7] ++ ascii "10") := by
  unfold Latched; decide

theorem witness_EncodedLength :
    Latched (inFlight false 0x17 (ascii "47195120")).blk (digitString [4, 7, 1, 9, 5, 1, 2, 0]) ∧
    (inFlight false 0x17 (ascii "47195120")).cfg.font8 = Config.default.font8 ∧
    (inFlight false 0x13 (ascii "5056501287154")).cfg.font13 = Config.default.font13 := by
  unfold Latched; decide

theorem witness_ReferenceVectorsEncode :
    (inFlight true 0x03 (ascii "5056501287155")).cfg.wf = true ∧
    Latched (inFlight true 0x03 (ascii "5056501287155")).blk (ascii "5056501287155") ∧
    Latched (inFlight false 0x07 (ascii "47195127")).blk (ascii "47195127") := by
  unfold Latched; decide

theorem witness_SymbolsArePacked :
    ([4, 7, 1, 9, 5, 1, 2, 7] : List Digit).head? = some 4 ∧ ([4, 7, 1, 9, 5, 1, 2, 7] : List Digit).length = 8 ∧
    ([4, 7, 1, 9, 5, 1, 2, 7] : List Digit)[(7 : Fin 8).val]? = some 7 := by decide

/-- The invariant holds after reset, and a step follows. -/
theorem witness_StepKeepsTheInvariant :
    StateInv (hostAbout State.reset (.write 0x00 0x03)) ∧ ∃ t, step (hostAbout State.reset (.write 0x00 0x03)) = .next t := by
  refine ⟨?_, _, rfl⟩
  unfold StateInv
  constructor <;> simp [hostAbout, State.reset, Block.reset]

theorem witness_EveryStepGoesOn :
    HostInSpec (hostAbout (inFlight false 0x03 []) (.write 0x00 0x01)) ∧ HostInSpec State.reset :=
  ⟨by intro off n h; simp [hostAbout] at h, by intro off n h; cases h⟩

theorem witness_StepKeepsTheConstants :
    (∃ t, step (inFlight true 0x03 (ascii "0000000000000")) = .next t) ∧
    ∃ t, exec (.encodeEan13 false .text) (inFlight true 0x03 (ascii "0000000000000")) = .next t :=
  ⟨⟨_, rfl⟩, _, rfl⟩

/-- A host's read of a busy block: not the engine's step and no reset. -/
theorem witness_OnlyCompletionAndResetWriteResults :
    (let s := hostAbout (inFlight false 0x03 []) (.read 0x07)
     (∃ t, step s = .next t) ∧ ¬ EngineMoves s ∧ ¬ ResetMoves s) :=
  ⟨⟨_, rfl⟩, (by rintro ⟨-, ⟨ts, h⟩ | h⟩ <;> cases h), by rintro ⟨ts, h⟩; cases h⟩

/-- An issue changes `STATUS`. -/
theorem witness_StatusChangesOnlySo :
    ∃ t, step (hostAbout State.reset (.write 0x00 0x03)) = .next t ∧
      statusByte t.blk ≠ statusByte (hostAbout State.reset (.write 0x00 0x03)).blk :=
  ⟨_, rfl, by decide⟩

theorem witness_OnlyIssueAndResetWriteLatches :
    (∃ t, step (hostAbout State.reset (.write 0x00 0x03)) = .next t) ∧ ¬ ResetMoves (hostAbout State.reset (.write 0x00 0x03)) :=
  ⟨⟨_, rfl⟩, by rintro ⟨ts, h⟩; cases h⟩

theorem witness_CommandInFlightCompletes :
    (let s := hostAbout (inFlight false 0x03 (ascii "5056501287155")) .pollDone
     s.blk.busy = true ∧ .reset ∉ s.env.turns ∧ HostInSpec s) :=
  ⟨rfl, by decide, by intro off n h; simp [hostAbout] at h⟩

theorem witness_IssuedCommandCompletes :
    (let s : State := { State.reset with env := { turns := [], ops := [.write 0x00 0x04], reads := [] } }
     s.blk.busy = false ∧ s.env.turns = [] ∧ s.env.ops = .write 0x00 0x04 :: []) ∧
    (let s : State :=
      { State.reset with
        env := { turns := [.host, .host, .host, .engine], ops := [.write 0x00 0x04, .write 0x06 0x07, .write 0x10 0x39], reads := [] } }
     s.blk.busy = false ∧ HostInSpec s ∧ s.env.turns = .host :: (List.replicate 2 .host ++ .engine :: []) ∧
       s.env.ops = .write 0x00 0x04 :: [.write 0x06 0x07, .write 0x10 0x39]) ∧
    decode 0x04 = .ok (.checksumEan8 .text) :=
  ⟨by decide, ⟨rfl, by intro off n h; simp at h, rfl, rfl⟩, rfl⟩

theorem witness_LoadStrLoadsTheOperand :
    (let s : State := { State.reset with env := { turns := [], ops := loadStr (ascii "12345678910123"), reads := [] } }
     HostHasTurns (1 + min (ascii "12345678910123").length 16) s ∧ s.env.ops = loadStr (ascii "12345678910123") ++ []) ∧
    (let s : State :=
      { inFlight false 0x03 [] with env := { turns := [.host, .host, .host, .engine], ops := loadStr (ascii "12"), reads := [] } }
     HostHasTurns (1 + min (ascii "12").length 16) s ∧ s.env.ops = loadStr (ascii "12") ++ []) := by
  unfold HostHasTurns; decide

theorem witness_WaitDonePollsStatus :
    HostMoves (hostAbout (inFlight false 0x03 []) .pollDone) ∧ (hostAbout (inFlight false 0x03 []) .pollDone).env.ops = .pollDone :: [] ∧
    (hostAbout (inFlight false 0x03 []) .pollDone).blk.done = false ∧
    (hostAbout { State.reset with blk := { Block.reset with done := true } } .pollDone).blk.done = true :=
  ⟨hostMoves_hostAbout _ _, rfl, rfl, rfl⟩

/-- A block with the one-byte result "5", idle and then busy with the next command, and a host about to read it. -/
theorem witness_ReadOutReturnsTheResult :
    (let s : State :=
      { State.reset with
        blk := complete { acc := 85, chk := 5, out := ascii "5" } Block.reset
        env := { turns := [], ops := readOut, reads := [] } }
     StateInv s ∧ HostHasTurns (1 + s.blk.outlen.toNat) s ∧ s.env.ops = readOut ++ []) ∧
    (let s : State :=
      { State.reset with
        blk := issue 0x04 (complete { acc := 85, chk := 5, out := ascii "5" } Block.reset)
        env := { turns := [.host, .host, .engine], ops := readOut, reads := [] } }
     StateInv s ∧ HostHasTurns (1 + s.blk.outlen.toNat) s ∧ s.env.ops = readOut ++ [] ∧ s.blk.busy = true) := by
  unfold StateInv HostHasTurns
  refine ⟨⟨?_, by decide, rfl⟩, ?_, by decide, rfl, rfl⟩ <;> constructor <;> decide

theorem witness_RequiredSubstrings :
    argKind (.fixEan8 .text) = .text ∧ (inFlight false 0x06 []).blk.linlen.toNat ∉ acceptedLens (.fixEan8 .text) ∧
    acceptedLens (.fixEan8 .text) = [7, 8] ∧ acceptedLens (.checksumEan13 .text) = [12] ∧ acceptedLens (.isvalidEan13 .text) = [13] ∧
    acceptedLens (.checksumEan8 .text) = [7] ∧ acceptedLens (.encodeEan8 true .text) = [8] ∧
    acceptedLens (.fixEan13 .text) = [12, 13] := by decide
end

/-! PROOFS. The statements on the scope: what a turn of each agent is, the reset state, and the reference vectors. -/

namespace Sys2Proof.Machine

/-- The engine's turn on a command word that decodes is `exec` of the command (R60). -/
theorem engineTurn_decoded (s : State) (i : Instr) (hb : s.blk.busy = true) (hd : decode s.blk.lcmd = .ok i) :
    engineTurn s = exec i s := by
  simp [engineTurn, commandInFlight, hb, hd]

/-- The host's turn on a read is that read (R55). -/
theorem hostTurn_read (s : State) (off : Offset) (rest : List HostOp) (ho : s.env.ops = .read off :: rest) :
    hostTurn s = .next (hostRead off rest s) := by
  simp [hostTurn, ho]

/-- The host's turn on a write is that write (R56 to R59). -/
theorem hostTurn_write (s : State) (off : Offset) (v : Byte) (rest : List HostOp) (ho : s.env.ops = .write off v :: rest) :
    hostTurn s = .next (hostWrite off v rest s) := by
  simp [hostTurn, ho]

/-- The reset block has the invariant in both settings of `P_CHECK_TEN`: every register of it is 0 (R38). -/
theorem blockInv_reset (ten : Bool) : BlockInv ten Block.reset where
  busy_done := by decide
  errcode_le := by decide
  err_iff := by decide
  errnl_iff := by decide
  errl0_range := by decide
  errl1_range := by decide
  acc_le := by decide
  chk_le := .inl (by decide)
  no_sum := by decide
  outlen_le := by decide
  out_zero := by decide
  err_empty := by decide
  valid_empty := by decide

/-- A font string has at most two bytes for each digit (R150, R159). -/
theorem fontString_length_le {tables len : Nat} (F : Font tables (len + 1)) (ds : List Digit) (h : ds.length = len + 1) :
    (fontString F ds).length ≤ 2 * (len + 1) := by
  obtain ⟨d, rfl⟩ := exists_ofFn _ ds h
  rw [fontString_ofFn]
  simpa using (flatMap_symbols_length (List.finRange (len + 1)) fun i => F.symbolAt (d 0) i (d i)).2

/-- The encoded string of a full barcode fits into `OUT` (R159). -/
theorem fontenc_length_le (c : Config) (v : Variant) (ds : List Digit) (h : ds.length = fullLen v) :
    (fontenc c v ds).length ≤ 32 := by
  cases v with
  | ean13 => exact (fontString_length_le c.font13 ds h).trans (by decide)
  | ean8 => exact (fontString_length_le c.font8 ds h).trans (by decide)

/-- `ENCODE` of an admitted full barcode, whose check digit is right unless `NV` is set, leaves its font string (R158, R161). -/
theorem exec_encodeOf_outString (v : Variant) (nv : Bool) (s : State) (ds : List Digit) (hl : Latched s.blk (digitString ds))
    (hlen : ds.length = fullLen v) (hc : nv = false → CheckDigitRight s.cfg.checkTen v ds) :
    ∃ t, exec (encodeOf v nv .text) s = .next t ∧ outString t.blk = fontenc s.cfg v ds := by
  have hout : (encodeResult v nv .text s).out = fontenc s.cfg v ds := by
    cases nv with
    | true => rw [encodeResult_nv v s ds hl hlen]
    | false => rw [encodeResult_right v s ds hl hlen (hc rfl)]
  have hfit : (encodeResult v nv .text s).out.length ≤ 32 := hout ▸ fontenc_length_le s.cfg v ds hlen
  refine ⟨_, exec_encodeOf v nv .text s, ?_⟩
  rw [outString_of_completed s _ _ (completed_of_complete s _ (by omega)) hfit, hout]

/-- The digits of the source's two reference barcodes (R157). -/
def referenceDigits : Variant → List Digit
  | .ean13 => [5, 0, 5, 6, 5, 0, 1, 2, 8, 7, 1, 5, 5]
  | .ean8 => [4, 7, 1, 9, 5, 1, 2, 7]

/-- The encoded strings the source gives for them (R157). -/
def referenceString : Variant → List Byte
  | .ean13 => ascii "5APQFAL*cihbff+"
  | .ean8 => ascii ":EHBJ*fbch+"

theorem referenceDigits_length (v : Variant) : (referenceDigits v).length = fullLen v := by
  cases v <;> rfl

/-- The weighted sums of the reference barcodes, 85 and 53, are no multiples of 10, so their last digits, 5 and 7, are right in
both settings of `P_CHECK_TEN`. -/
theorem referenceDigits_checkDigitRight (ten : Bool) (v : Variant) : CheckDigitRight ten v (referenceDigits v) := by
  cases v with
  | ean13 => exact ⟨5, rfl, rfl⟩
  | ean8 => exact ⟨7, rfl, rfl⟩

/-- A well-formed configuration encodes the reference barcodes as the source says: its symbols at their positions are those the
source's strings split into (R157). -/
theorem fontenc_referenceDigits (c : Config) (h : c.wf = true) (v : Variant) :
    fontenc c v (referenceDigits v) = referenceString v := by
  simp only [Config.wf, Bool.and_eq_true] at h
  obtain ⟨⟨h13, h8⟩, -⟩ := h
  cases v with
  | ean13 =>
    calc fontString c.font13 (List.ofFn ![5, 0, 5, 6, 5, 0, 1, 2, 8, 7, 1, 5, 5])
      _ = _ := fontString_ofFn c.font13 _
      _ = _ := congrArg List.flatten (eq_of_beq h13)
  | ean8 =>
    calc fontString c.font8 (List.ofFn ![4, 7, 1, 9, 5, 1, 2, 7])
      _ = _ := fontString_ofFn c.font8 _
      _ = _ := congrArg List.flatten (eq_of_beq h8)

/-- Under a well-formed configuration a latched reference barcode encodes as the source says (R157). -/
theorem exec_encodeOf_reference (v : Variant) (nv : Bool) (s : State) (hwf : s.cfg.wf = true)
    (hl : Latched s.blk (digitString (referenceDigits v))) :
    ∃ t, exec (encodeOf v nv .text) s = .next t ∧ outString t.blk = referenceString v := by
  rw [← fontenc_referenceDigits s.cfg hwf v]
  exact exec_encodeOf_outString v nv s _ hl (referenceDigits_length v) fun _ => referenceDigits_checkDigitRight _ v

/-- Settles O32: the check digits are right in both settings, and a well-formed configuration fixes the symbols used. -/
theorem referenceVectorsEncode : Obligations.ReferenceVectorsEncode := by
  intro s nv hwf
  exact ⟨exec_encodeOf_reference .ean13 nv s hwf, exec_encodeOf_reference .ean8 nv s hwf⟩

/-- Settles O5: the engine's turn decodes the command in flight, and striking off the turn leaves the block. -/
theorem stepRunsDecodedCommand : Obligations.StepRunsDecodedCommand := by
  intro s i hm hd
  rw [step, mover_engine s hm]
  exact engineTurn_decoded (takeTurn s) i hm.1 hd

/-- Settles O11: the host's turn takes the first operation of its script, a read or a write. -/
theorem hostTurnIsOneTransaction : Obligations.HostTurnIsOneTransaction := by
  constructor
  · intro s off rest hm ho
    rw [step_host s hm]
    exact hostTurn_read (takeTurn s) off rest ho
  · intro s off v rest hm ho
    rw [step_host s hm]
    exact hostTurn_write (takeTurn s) off v rest ho

/-- Settles O37: the reset block is all zeros, and the default fonts are those of the reference vectors. -/
theorem resetHasTheInvariant : Obligations.ResetHasTheInvariant :=
  ⟨blockInv_reset _, by decide⟩

end Sys2Proof.Machine

/-! PROOFS. What every step keeps or changes: the invariant of the block, the constants, `STATUS` and the latches; and the reset. -/

namespace Sys2Proof.Machine

/-! ### The records a completion writes are in range -/

/-- `ACC` of a barcode is at most 216 (R29, R122). -/
theorem payloadAccum_le (v : Variant) (ds : List Digit) : (payloadAccum v ds).toNat ≤ 216 := by
  rw [payloadAccum_toNat]
  exact weightedSum_lt v ds

/-- `CHK` is a digit, or 10 under `P_CHECK_TEN` (R30, R123). -/
theorem check_range (ten : Bool) (acc : Byte) : (check ten acc).toNat ≤ 9 ∨ (check ten acc = 10 ∧ ten = true) := by
  by_cases h : checkValue ten acc.toNat = 10
  · exact .inr ⟨BitVec.eq_of_toNat_eq (by rw [check_toNat, h]; rfl), ((checkValue_eq_ten _ _).1 h).1⟩
  · have := checkValue_le ten acc.toNat
    exact .inl (by rw [check_toNat]; omega)

/-- A check string has one or two characters (R124). -/
theorem chkstr_length_le (k : Byte) : (chkstr k).length ≤ 2 := by
  unfold chkstr
  split <;> simp

/-- An encoded string has at most two bytes for each digit, which is at most 26 (R159). -/
theorem fontenc_length_le_outlen (c : Config) (v : Variant) (ds : List Digit) (h : ds.length = fullLen v) :
    (fontenc c v ds).length ≤ 26 := by
  cases v with
  | ean13 => exact fontString_length_le c.font13 ds h
  | ean8 => exact (fontString_length_le c.font8 ds h).trans (by decide)

/-- An admitted operand has as many digits as one of the accepted lengths, when these fit into `IN` (R104, R107). -/
theorem admission_ok_length {k : ArgKind} {a : Accepted} {b : Block} {ds : List Digit} (h : admission k a b = .ok ds)
    (ha : ∀ n, a.has n = true → n ≤ 16) : a.has ds.length = true := by
  obtain ⟨ds', hok, -, hlen, hstr⟩ | ⟨herr, -⟩ | ⟨herr, -⟩ | ⟨i, herr, -⟩ := admit_cases k a b
  · cases hok.symm.trans h
    have hds : ds.length = b.linlen.toNat := by
      rw [← digitString_length, hstr, operand, List.length_take, Vector.length_toList]
      have := ha _ hlen
      omega
    rwa [hds]
  all_goals cases herr.symm.trans h

/-- What an error records is in the ranges of R24 to R26, R29 and R30: accepted lengths are at most 13, the larger being the next
number after the smaller, an index is below 13, and a sum and its check value are in range. -/
def CmdError.InRange (ten : Bool) : CmdError → Prop
  | .illegalCmd | .typeMismatch => True
  | .lengthMismatch (.single n) => n ≤ 13
  | .lengthMismatch (.either m n) => n = m + 1 ∧ n ≤ 13
  | .nonDigit i => i < 13
  | .invalidBarcode acc chk => acc.toNat ≤ 216 ∧ (chk.toNat ≤ 9 ∨ (chk = 10 ∧ ten = true))

/-- An accepted length whose list is in range is at most 13. -/
theorem Accepted.has_le {ten : Bool} {a : Accepted} {n : Nat} (ha : (CmdError.lengthMismatch a).InRange ten)
    (h : a.has n = true) : n ≤ 13 := by
  cases a with
  | single m =>
    obtain rfl : n = m := by simpa [Accepted.has] using h
    exact ha
  | either m k =>
    obtain ⟨hk, hle⟩ := ha
    have hn : n = m ∨ n = k := by simpa [Accepted.has] using h
    omega

/-- Every error of the front end is in range when the accepted lengths are (R103, R105, R106). -/
theorem admission_error_inRange {ten : Bool} {k : ArgKind} {a : Accepted} {b : Block} {e : CmdError}
    (h : admission k a b = .error e) (ha : (CmdError.lengthMismatch a).InRange ten) : e.InRange ten := by
  obtain ⟨ds, hok, -⟩ | ⟨herr, -⟩ | ⟨herr, -⟩ | ⟨i, herr, -, hlen, hi⟩ := admit_cases k a b
  · cases hok.symm.trans h
  · cases herr.symm.trans h; trivial
  · cases herr.symm.trans h; exact ha
  · cases herr.symm.trans h
    have := Accepted.has_le ha hlen
    rw [operand, List.length_take] at hi
    show i < 13
    omega

/-- The accepted lengths of every command are in range (R104). -/
theorem payloadLen_inRange (ten : Bool) (v : Variant) : (CmdError.lengthMismatch (.single (payloadLen v))).InRange ten := by
  cases v <;> simp [CmdError.InRange, payloadLen, fullLen]

theorem fullLen_inRange (ten : Bool) (v : Variant) : (CmdError.lengthMismatch (.single (fullLen v))).InRange ten := by
  cases v <;> simp [CmdError.InRange, fullLen]

theorem eitherLen_inRange (ten : Bool) (v : Variant) :
    (CmdError.lengthMismatch (.either (payloadLen v) (fullLen v))).InRange ten := by
  cases v <;> simp [CmdError.InRange, payloadLen, fullLen]

/-! ### A completion establishes the invariant -/

/-- From `OUTLEN` on, `OUT` is 0x00 after a completion (R32, R60). -/
theorem packOut_zero (out : List Byte) (h : out.length ≤ 255) (i : Fin 32)
    (hi : (BitVec.ofNat 8 out.length).toNat ≤ i.val) : (packOut out)[i] = 0x00 := by
  have hlen : out.length ≤ i.val := by simpa [Nat.mod_eq_of_lt (show out.length < 256 by omega)] using hi
  rw [packOut_getElem, List.getElem?_eq_none hlen]
  rfl

/-- A completion without an error establishes the invariant. -/
theorem blockInv_complete_success (ten : Bool) (b : Block) (valid : Bool) (acc chk : Byte) (out : List Byte)
    (hacc : acc.toNat ≤ 216) (hchk : chk.toNat ≤ 9 ∨ (chk = 10 ∧ ten = true)) (hout : out.length ≤ 26)
    (hvalid : valid = true → out = []) :
    BlockInv ten (complete { valid := valid, acc := acc, chk := chk, out := out } b) where
  busy_done := by simp
  errcode_le := by simp
  err_iff := by simp
  errnl_iff := by simp
  errl0_range := by simp
  errl1_range := by simp
  acc_le := hacc
  chk_le := hchk
  no_sum := by simp
  outlen_le := by
    show out.length % 256 ≤ 26
    omega
  out_zero := packOut_zero out (by omega)
  err_empty := by simp
  valid_empty := fun h => by rw [complete_outlen, hvalid h]; rfl

/-- An error's record says so, names an error code, and has neither a result string nor `VALID` (R200, R205). -/
theorem raise_isError (e : CmdError) :
    (raise e).err = true ∧ (raise e).errcode ≠ 0 ∧ (raise e).errcode.toNat ≤ 5 ∧ (raise e).valid = false := by
  cases e with
  | lengthMismatch a => cases a <;> exact ⟨rfl, by simp [raise], by simp [raise], rfl⟩
  | _ => exact ⟨rfl, by simp [raise], by simp [raise], rfl⟩

/-- `ERRNL`, `ERRL0` and `ERRL1` of an error in range are as R24 to R26 say. -/
theorem raise_info {ten : Bool} {e : CmdError} (h : e.InRange ten) :
    (((raise e).errcode = 3 → (raise e).errnl = 1 ∨ (raise e).errnl = 2) ∧ ((raise e).errcode ≠ 3 → (raise e).errnl = 0)) ∧
    (((raise e).errcode ≠ 3 → (raise e).errcode ≠ 4 → (raise e).errl0 = 0) ∧ (raise e).errl0.toNat ≤ 13) ∧
    ((raise e).errnl ≠ 2 → (raise e).errl1 = 0) ∧
    ((raise e).errnl = 2 → (raise e).errl1.toNat = (raise e).errl0.toNat + 1) := by
  cases e with
  | illegalCmd => simp [raise]
  | typeMismatch => simp [raise]
  | lengthMismatch a =>
    cases a with
    | single n =>
      have hn : n % 256 ≤ 13 := (Nat.mod_le n 256).trans h
      simpa [raise] using hn
    | either m n =>
      obtain ⟨rfl, hle⟩ := h
      have hm : m % 256 ≤ 13 ∧ (m + 1) % 256 = m % 256 + 1 := by omega
      simpa [raise] using hm
  | nonDigit i =>
    have hi : i % 256 ≤ 13 := (Nat.mod_le i 256).trans (Nat.le_of_lt h)
    simpa [raise] using hi
  | invalidBarcode acc chk => simp [raise]

/-- `ACC` and `CHK` of an error in range are 0 but for `INVALID_BARCODE`, which records a sum and its check value (R202). -/
theorem raise_sum {ten : Bool} {e : CmdError} (h : e.InRange ten) :
    (raise e).acc.toNat ≤ 216 ∧ ((raise e).chk.toNat ≤ 9 ∨ ((raise e).chk = 10 ∧ ten = true)) ∧
    ((raise e).errcode ≠ 5 → (raise e).acc = 0 ∧ (raise e).chk = 0) := by
  cases e with
  | invalidBarcode acc chk => exact ⟨h.1, h.2, fun h5 => absurd rfl h5⟩
  | lengthMismatch a => cases a <;> simp [raise]
  | _ => simp [raise]

/-- A completion by an error in range establishes the invariant (R202, R205). -/
theorem blockInv_complete_raise {ten : Bool} {e : CmdError} (b : Block) (h : e.InRange ten) :
    BlockInv ten (complete (raise e) b) := by
  obtain ⟨herr, hcode, hcode_le, hvalid⟩ := raise_isError e
  obtain ⟨herrnl, herrl0, herrl1⟩ := raise_info h
  obtain ⟨hacc, hchk, hsum⟩ := raise_sum h
  have hout : (complete (raise e) b).outlen = 0 := by rw [complete_outlen, raise_out]; rfl
  exact {
    busy_done := by simp
    errcode_le := hcode_le
    err_iff := iff_of_true herr hcode
    errnl_iff := herrnl
    errl0_range := herrl0
    errl1_range := herrl1
    acc_le := hacc
    chk_le := hchk
    no_sum := fun _ => hsum
    outlen_le := by rw [hout]; decide
    out_zero := packOut_zero (raise e).out (by rw [raise_out]; decide)
    err_empty := fun _ => ⟨hout, hvalid⟩
    valid_empty := fun _ => hout }

/-- `CHECKSUM`'s completion establishes the invariant (R125). -/
theorem blockInv_complete_checksum (v : Variant) (k : ArgKind) (s : State) (b : Block) :
    BlockInv s.cfg.checkTen (complete (checksumResult v k s) b) := by
  unfold checksumResult
  split
  · next e he => exact blockInv_complete_raise b (admission_error_inRange he (payloadLen_inRange _ v))
  · next ds _ =>
    exact blockInv_complete_success _ b false _ _ _ (payloadAccum_le v ds) (check_range _ _)
      ((chkstr_length_le _).trans (by decide)) (by simp)

/-- `ISVALID`'s completion establishes the invariant (R126). -/
theorem blockInv_complete_isvalid (v : Variant) (k : ArgKind) (s : State) (b : Block) :
    BlockInv s.cfg.checkTen (complete (isvalidResult v k s) b) := by
  unfold isvalidResult
  split
  · next e he => exact blockInv_complete_raise b (admission_error_inRange he (fullLen_inRange _ v))
  · next ds _ =>
    exact blockInv_complete_success _ b _ _ _ [] (payloadAccum_le v ds) (check_range _ _) (by decide) (fun _ => rfl)

/-- `FIX`'s completion establishes the invariant: the payload and the check string are at most 12 and 2 characters (R127). -/
theorem blockInv_complete_fix (v : Variant) (k : ArgKind) (s : State) (b : Block) :
    BlockInv s.cfg.checkTen (complete (fixResult v k s) b) := by
  unfold fixResult
  split
  · next e he => exact blockInv_complete_raise b (admission_error_inRange he (eitherLen_inRange _ v))
  · next ds _ =>
    have hout : ((operand s.blk).take (payloadLen v) ++ chkstr (check s.cfg.checkTen (payloadAccum v ds))).length ≤ 26 := by
      have hpay : payloadLen v ≤ 12 := by cases v <;> decide
      have htake := List.length_take_le (payloadLen v) (operand s.blk)
      have hchk := chkstr_length_le (check s.cfg.checkTen (payloadAccum v ds))
      rw [List.length_append]
      omega
    exact blockInv_complete_success _ b false _ _ _ (payloadAccum_le v ds) (check_range _ _) hout (by simp)

/-- `ENCODE`'s completion establishes the invariant: validated, refused by validation, or without validation (R161). -/
theorem blockInv_complete_encode (v : Variant) (nv : Bool) (k : ArgKind) (s : State) (b : Block) :
    BlockInv s.cfg.checkTen (complete (encodeResult v nv k s) b) := by
  unfold encodeResult
  split
  · next e he => exact blockInv_complete_raise b (admission_error_inRange he (fullLen_inRange _ v))
  · next ds hds =>
    have hlen : ds.length = fullLen v := by
      have hfit : ∀ n, (Accepted.single (fullLen v)).has n = true → n ≤ 16 := by
        intro n hn
        have := Accepted.has_le (fullLen_inRange s.cfg.checkTen v) hn
        omega
      simpa using (single_has _ _).1 (admission_ok_length hds hfit)
    have hout := fontenc_length_le_outlen s.cfg v ds hlen
    have hsum := payloadAccum_le v ds
    have hchk := check_range s.cfg.checkTen (payloadAccum v ds)
    cases nv with
    | true => exact blockInv_complete_success _ b false 0 0 _ (by decide) (.inl (by decide)) hout (by simp)
    | false =>
      simp only
      split
      · exact blockInv_complete_success _ b false _ _ _ hsum hchk hout (by simp)
      · exact blockInv_complete_raise b ⟨hsum, hchk⟩

/-- Every command's completion establishes the invariant, whatever stood in the block before. -/
theorem blockInv_complete_command (i : Instr) (s : State) (b : Block) :
    BlockInv s.cfg.checkTen (complete (commandResult i s) b) := by
  cases i with
  | checksumEan13 k => exact blockInv_complete_checksum .ean13 k s b
  | isvalidEan13 k => exact blockInv_complete_isvalid .ean13 k s b
  | fixEan13 k => exact blockInv_complete_fix .ean13 k s b
  | encodeEan13 nv k => exact blockInv_complete_encode .ean13 nv k s b
  | checksumEan8 k => exact blockInv_complete_checksum .ean8 k s b
  | isvalidEan8 k => exact blockInv_complete_isvalid .ean8 k s b
  | fixEan8 k => exact blockInv_complete_fix .ean8 k s b
  | encodeEan8 nv k => exact blockInv_complete_encode .ean8 nv k s b

/-- The completion of the command in flight establishes the invariant, that of an illegal word included (R60, R101). -/
theorem blockInv_complete_flight (s : State) (b : Block) : BlockInv s.cfg.checkTen (complete (flightResult s) b) := by
  unfold flightResult
  split
  · exact blockInv_complete_command _ s b
  · exact blockInv_complete_raise b trivial

/-! ### A host write keeps the invariant -/

/-- A host write changes no result register (R56 to R59, R62). -/
theorem writeReg_sameResults (off : Offset) (v : Byte) (b : Block) : SameResults (writeReg off v b) b := by
  obtain ⟨-, -, h⟩ | ⟨-, -, h⟩ | ⟨-, h⟩ | ⟨-, h⟩ | ⟨i, -, h⟩ | h := writeReg_cases off v b
  all_goals rw [h]; exact ⟨rfl, rfl, rfl, rfl, rfl, rfl, rfl, rfl, rfl, rfl⟩

/-- A host write never leaves `BUSY` and `DONE` both 1 (R22, R59). -/
theorem writeReg_busy_done (off : Offset) (v : Byte) (b : Block) (hb : ¬ (b.busy = true ∧ b.done = true)) :
    ¬ ((writeReg off v b).busy = true ∧ (writeReg off v b).done = true) := by
  obtain ⟨-, -, h⟩ | ⟨-, -, h⟩ | ⟨-, h⟩ | ⟨-, h⟩ | ⟨i, -, h⟩ | h := writeReg_cases off v b
  case inr.inl => rw [h]; simp
  all_goals rw [h]; exact hb

/-- The invariant speaks of the result registers, and of `BUSY` and `DONE` together. -/
theorem BlockInv.of_sameResults {ten : Bool} {b b' : Block} (h : BlockInv ten b) (hsame : SameResults b' b)
    (hbd : ¬ (b'.busy = true ∧ b'.done = true)) : BlockInv ten b' := by
  obtain ⟨h1, h2, h3, h4, h5, h6, h7, h8, h9, h10⟩ := hsame
  constructor
  case busy_done => exact hbd
  all_goals simp only [h1, h2, h3, h4, h5, h6, h7, h8, h9, h10]
  exacts [h.errcode_le, h.err_iff, h.errnl_iff, h.errl0_range, h.errl1_range, h.acc_le, h.chk_le, h.no_sum, h.outlen_le,
    h.out_zero, h.err_empty, h.valid_empty]

/-- Settles O36: a completion and a reset establish the invariant whatever stood in the block, a host write changes nothing the
invariant speaks of but `BUSY` and `DONE`, and every other step keeps the block. -/
theorem stepKeepsTheInvariant : Obligations.StepKeepsTheInvariant := by
  intro s t hs hstep
  obtain ⟨hcfg, ⟨-, hblk⟩ | ⟨-, hblk⟩ | ⟨-, off, v, rest, -, hblk⟩ | ⟨-, -, hblk⟩⟩ := step_cases s t hstep
  all_goals rw [StateInv, hcfg, hblk]
  · exact blockInv_complete_flight (takeTurn s) s.blk
  · exact blockInv_reset _
  · exact hs.of_sameResults (writeReg_sameResults off v s.blk) (writeReg_busy_done off v s.blk hs.busy_done)
  · exact hs

/-! ### What a step leaves unchanged -/

/-- Settles O38: it is part of what every step can do, and of what `exec` answers. -/
theorem stepKeepsTheConstants : Obligations.StepKeepsTheConstants := by
  constructor
  · intro s t hstep
    exact (step_cases s t hstep).1
  · intro i s t hexec
    rw [exec_eq] at hexec
    cases hexec
    rfl

/-- A host write at another offset than those of `CMD` and `STATUS` keeps the `STATUS` byte (R22, R56, R57). -/
theorem statusByte_writeReg (off : Offset) (v : Byte) (b : Block) (hcmd : off ≠ 0x00) (hstatus : off ≠ 0x01) :
    statusByte (writeReg off v b) = statusByte b := by
  obtain ⟨h0, -⟩ | ⟨h0, -⟩ | ⟨h1, -⟩ | ⟨-, h⟩ | ⟨i, -, h⟩ | h := writeReg_cases off v b
  · exact absurd h0 hcmd
  · exact absurd h0 hcmd
  · exact absurd h1 hstatus
  · rw [h]; rfl
  · rw [h]; rfl
  · rw [h]

/-- Settles O40: a step that is no completion and no reset changes the block by a host write only, and only one to `CMD` or
`STATUS` reaches the `STATUS` byte. -/
theorem statusChangesOnlySo : Obligations.StatusChangesOnlySo := by
  intro s t hstep hne
  obtain ⟨-, ⟨he, -⟩ | ⟨hr, -⟩ | ⟨hh, off, v, rest, hops, hblk⟩ | ⟨-, -, hblk⟩⟩ := step_cases s t hstep
  · exact .inl he
  · exact .inr (.inl hr)
  · refine .inr (.inr ⟨hh, v, rest, ?_⟩)
    by_cases hcmd : off = 0x00
    · exact .inl (hcmd ▸ hops)
    by_cases hstatus : off = 0x01
    · exact .inr (hstatus ▸ hops)
    exact absurd (hblk ▸ statusByte_writeReg off v s.blk hcmd hstatus) hne
  · exact absurd (hblk ▸ rfl) hne

/-- A host write keeps the latches, or it is the issue of an idle block (R33, R59). -/
theorem writeReg_latches (off : Offset) (v : Byte) (b : Block) :
    ((writeReg off v b).lcmd = b.lcmd ∧ (writeReg off v b).linlen = b.linlen ∧ (writeReg off v b).lin = b.lin) ∨
    (off = 0x00 ∧ b.busy = false ∧ writeReg off v b = issue v b) := by
  obtain ⟨-, -, h⟩ | ⟨h0, hb, h⟩ | ⟨-, h⟩ | ⟨-, h⟩ | ⟨i, -, h⟩ | h := writeReg_cases off v b
  case inr.inl => exact .inr ⟨h0, hb, h⟩
  all_goals rw [h]; exact .inl ⟨rfl, rfl, rfl⟩

/-- Settles O41: a completion keeps the latches, and the only host write that changes them is an issue. -/
theorem onlyIssueAndResetWriteLatches : Obligations.OnlyIssueAndResetWriteLatches := by
  intro s t hstep hnr
  obtain ⟨-, ⟨-, hblk⟩ | ⟨hr, -⟩ | ⟨hh, off, v, rest, hops, hblk⟩ | ⟨-, -, hblk⟩⟩ := step_cases s t hstep
  · rw [hblk]; exact .inl ⟨rfl, rfl, rfl⟩
  · exact absurd hr hnr
  · rw [hblk]
    obtain hkept | ⟨rfl, hb, hissue⟩ := writeReg_latches off v s.blk
    · exact .inl hkept
    · rw [hissue]
      exact .inr ⟨hh, hb, rfl, rfl, rest, hops⟩
  · rw [hblk]; exact .inl ⟨rfl, rfl, rfl⟩

/-! ### The reset -/

/-- Settles O9: the reset block is written out register by register. -/
theorem resetLeavesEveryRegisterZero : Obligations.ResetLeavesEveryRegisterZero := by
  unfold Obligations.ResetLeavesEveryRegisterZero
  decide

/-- Settles O10: a listed reset takes its turn and resets the block, whatever `BUSY` is. -/
theorem resetInputResetsTheBlock : Obligations.ResetInputResetsTheBlock := by
  intro s ts hts
  refine ⟨_, step_reset s ⟨ts, hts⟩, rfl, rfl, ?_⟩
  show { s.env with turns := s.env.turns.tail } = _
  rw [hts, List.tail_cons]

/-! ### Runs of the host: `LOADSTR` and `READOUT` -/

/-- A step and then a run of `k` steps are a run of `k + 1`. -/
theorem run_succ_of_step {M : Host.Core} {s t r : M.State} {k : Nat} (hstep : M.step s = .next t)
    (hrun : M.run k t = .next r) : M.run (k + 1) s = .next r := by
  rw [Host.Core.run, hstep]
  exact hrun

/-- The step of a host about to read a register (R55). -/
theorem step_read {s : State} {off : Offset} {rest : List HostOp} (hm : HostMoves s) (hops : s.env.ops = .read off :: rest) :
    step s = .next (hostRead off rest (takeTurn s)) :=
  (step_host s hm).trans (hostTurn_read (takeTurn s) off rest hops)

/-- The step of a host about to write a register (R56 to R59). -/
theorem step_write {s : State} {off : Offset} {v : Byte} {rest : List HostOp} (hm : HostMoves s)
    (hops : s.env.ops = .write off v :: rest) : step s = .next (hostWrite off v rest (takeTurn s)) :=
  (step_host s hm).trans (hostTurn_write (takeTurn s) off v rest hops)

/-- `IN` with a string written over it from index `i` on (R81). -/
def overwriteFrom (i : Nat) (str : List Byte) (buf : Vector Byte 16) : Vector Byte 16 :=
  Vector.ofFn fun j => if j.val < i then buf[j] else (str[j.val - i]?).getD buf[j]

theorem overwriteFrom_nil (i : Nat) (buf : Vector Byte 16) : overwriteFrom i [] buf = buf := by
  ext j hj
  simp [overwriteFrom]

/-- Overwriting is writing the first byte and overwriting from the next index on. -/
theorem overwriteFrom_cons (i : Fin 16) (c : Byte) (str : List Byte) (buf : Vector Byte 16) :
    overwriteFrom i.val (c :: str) buf = overwriteFrom (i.val + 1) str (buf.set i c) := by
  apply Vector.ext
  intro j hj
  simp only [overwriteFrom, Vector.getElem_ofFn, Fin.getElem_fin, Vector.getElem_set]
  obtain hlt | rfl | hgt := Nat.lt_trichotomy j i.val
  · rw [if_pos hlt, if_pos (by omega), if_neg (by omega)]
  · simp
  · obtain ⟨m, hm⟩ : ∃ m, j - i.val = m + 1 := ⟨j - i.val - 1, by omega⟩
    rw [if_neg (by omega), if_neg (by omega), if_neg (by omega), hm, show j - (i.val + 1) = m by omega]
    rfl

/-- The writes of `LOADSTR` to `IN`, idle or busy: the string stands in `IN` from index `i` on, and nothing else in the block
changes (R56, R81, R256). -/
theorem run_writeIn (s : State) (i : Nat) (str : List Byte) (rest : List HostOp) (hi : i + str.length ≤ 16)
    (hturns : HostHasTurns str.length s) (hops : s.env.ops = writeIn i str ++ rest) :
    Sys2Proof.core.run str.length s = .next
      { s with
        blk := { s.blk with inBuf := overwriteFrom i str s.blk.inBuf }
        env := { s.env with turns := s.env.turns.drop str.length, ops := rest } } := by
  induction str generalizing s i with
  | nil =>
    have hrest : s.env.ops = rest := hops
    rw [overwriteFrom_nil, ← hrest]
    rfl
  | cons c str ih =>
    rw [List.length_cons] at hi hturns
    have hblk := writeReg_inByte ⟨i, by omega⟩ c s.blk
    have hstep := step_write hturns.moves hops
    have hrun := ih (hostWrite (BitVec.ofNat 6 (0x10 + i)) c (writeIn (i + 1) str ++ rest) (takeTurn s)) (i + 1) (by omega)
      (hturns.tail (by rw [hostWrite_blk, takeTurn_blk, hblk]) rfl) rfl
    rw [hostWrite_blk, takeTurn_blk, hblk] at hrun
    rw [overwriteFrom_cons ⟨i, by omega⟩, List.length_cons, ← List.drop_tail]
    exact run_succ_of_step (M := Sys2Proof.core) hstep hrun

/-- Settles O44: the write to `INLEN`, and then the writes to `IN` from index 0 on. -/
theorem loadStrLoadsTheOperand : Obligations.LoadStrLoadsTheOperand := by
  intro s str rest hturns hops
  have hlen : (str.take 16).length = min str.length 16 := by rw [List.length_take, Nat.min_comm]
  rw [Nat.add_comm, ← hlen] at hturns ⊢
  have hstep := step_write hturns.moves hops
  have hrun := run_writeIn (hostWrite 0x06 (BitVec.ofNat 8 (min str.length 255)) (writeIn 0 (str.take 16) ++ rest) (takeTurn s)) 0 (str.take 16) rest (by omega)
    (hturns.tail rfl rfl) rfl
  refine ⟨_, run_succ_of_step (M := Sys2Proof.core) hstep hrun, ?_, fun i => ?_, rfl, rfl, ?_⟩
  · show min str.length 255 % 256 = _
    omega
  · show (overwriteFrom 0 (str.take 16) s.blk.inBuf)[i] = _
    simp [overwriteFrom]
  · rw [← List.drop_tail]; rfl

/-- Reads of the offsets `offs`, one after another, idle or busy: they return the registers, and the block stays (R55). -/
theorem run_reads (s : State) (offs : List Offset) (rest : List HostOp) (hturns : HostHasTurns offs.length s)
    (hops : s.env.ops = offs.map .read ++ rest) :
    Sys2Proof.core.run offs.length s = .next
      { s with
        env :=
          { turns := s.env.turns.drop offs.length, ops := rest
            reads := s.env.reads ++ offs.map fun off => (off, readReg off s.blk) } } := by
  induction offs generalizing s with
  | nil =>
    have hrest : s.env.ops = rest := hops
    rw [← hrest, List.map_nil, List.append_nil]
    rfl
  | cons off offs ih =>
    have hstep := step_read hturns.moves hops
    have hrun := ih (hostRead off (offs.map .read ++ rest) (takeTurn s)) (hturns.tail rfl rfl) rfl
    rw [hostRead_reads, List.append_assoc] at hrun
    rw [List.length_cons, ← List.drop_tail]
    exact run_succ_of_step (M := Sys2Proof.core) hstep hrun

/-- The first step of `READOUT` reads `OUTLEN`, and the host goes on with as many reads of `OUT` (R81). -/
theorem step_readOut (s : State) (rest : List HostOp) (hm : HostMoves s) (hops : s.env.ops = readOut ++ rest) :
    step s = .next (hostRead 0x09 (readOutBytes s.blk.outlen.toNat ++ rest) (takeTurn s)) := by
  have hops' : (takeTurn s).env.ops = .readOutLen :: rest := hops
  rw [step_host s hm, hostTurn, hops']
  rfl

/-- The offsets of the first `n` bytes of `OUT` (R51). -/
def outOffsets (n : Nat) : List Offset := (List.range n).map fun i => BitVec.ofNat 6 (0x20 + i)

theorem outOffsets_length (n : Nat) : (outOffsets n).length = n := by simp [outOffsets]

theorem readOutBytes_eq (n : Nat) (h : n ≤ 32) : readOutBytes n = (outOffsets n).map .read := by
  rw [readOutBytes, Nat.min_eq_left h, outOffsets, List.map_map]
  rfl

/-- Offset 0x20 + i reads `OUT[i]` (R51, R55). -/
theorem readReg_outByte (i : Fin 32) (b : Block) : readReg (BitVec.ofNat 6 (0x20 + i.val)) b = b.outBuf[i] := by
  rw [readReg, regAt_outByte]

/-- The reads at the offsets of the first `OUTLEN` bytes of `OUT` return the result string (R32). -/
theorem outOffsets_readReg (b : Block) (h : b.outlen.toNat ≤ 32) :
    (outOffsets b.outlen.toNat).map (readReg · b) = outString b := by
  apply List.ext_getElem
  · simp [outOffsets, outString, h]
  · intro i hi hi'
    have hlt : i < b.outlen.toNat := by simpa [outOffsets] using hi
    simpa [outOffsets, outString] using readReg_outByte ⟨i, by omega⟩ b

/-- Settles O46: the read of `OUTLEN`, which the invariant bounds by 26, and then the reads of that many bytes of `OUT`. -/
theorem readOutReturnsTheResult : Obligations.ReadOutReturnsTheResult := by
  intro s rest hinv hturns hops
  have hle : s.blk.outlen.toNat ≤ 32 := hinv.outlen_le.trans (by decide)
  rw [Nat.add_comm] at hturns ⊢
  have hstep := step_readOut s rest hturns.moves hops
  rw [readOutBytes_eq _ hle] at hstep
  have hrun := run_reads (hostRead 0x09 ((outOffsets s.blk.outlen.toNat).map .read ++ rest) (takeTurn s))
    (outOffsets s.blk.outlen.toNat) rest
  rw [outOffsets_length] at hrun
  refine ⟨_, run_succ_of_step (M := Sys2Proof.core) hstep (hrun (hturns.tail rfl rfl) rfl), rfl, rfl, rfl, ?_⟩
  rw [← outOffsets_readReg s.blk hle, ← show readReg 0x09 s.blk = s.blk.outlen from rfl]
  simp [Function.comp_def]

end Sys2Proof.Machine

/-! PROOFS. The register window and the turns on it: the map at every offset, what each write does, the issue and its completion, and
which steps go on and which change nothing. -/

namespace Sys2Proof.Machine

/-! ### The register window -/

/-- Offset 0x10 + i reads `IN[i]` (R51, R55). -/
theorem readReg_inByte (i : Fin 16) (b : Block) : readReg (BitVec.ofNat 6 (0x10 + i.val)) b = b.inBuf[i] := by
  rw [readReg, regAt_inByte]

/-- The reserved offsets read 0x00 (R34). -/
theorem readReg_reserved (off : Offset) (b : Block) (h : 0x0A ≤ off.toNat) (h' : off.toNat ≤ 0x0F) : readReg off b = 0x00 := by
  rw [readReg, regAt_reserved off h h']

/-- The bits of the `STATUS` byte (R22). -/
theorem statusByte_bits (b : Block) :
    (statusByte b).getLsbD 0 = b.busy ∧ (statusByte b).getLsbD 1 = b.done ∧ (statusByte b).getLsbD 2 = b.err ∧
    (statusByte b).getLsbD 3 = b.valid ∧ (statusByte b).getLsbD 4 = b.ovr ∧ (statusByte b).toNat / 32 = 0 := by
  rw [statusByte]
  generalize b.busy = busy, b.done = done, b.err = err, b.valid = valid, b.ovr = ovr
  revert busy done err valid ovr
  decide

/-- `INLEN` stands at one offset only (R51). -/
theorem regAt_ne_inlen (off : Offset) (h : off ≠ 0x06) : regAt off ≠ .inlen := by
  revert off; decide

/-- `IN[i]` stands at one offset only (R51). -/
theorem regAt_ne_inByte (off : Offset) (i : Fin 16) (h : off ≠ BitVec.ofNat 6 (0x10 + i.val)) : regAt off ≠ .inByte i := by
  revert off i; decide

/-- Another offset than its own does not read `INLEN`. -/
theorem readReg_inlen_ne (off : Offset) (v : Byte) (b : Block) (h : off ≠ 0x06) :
    readReg off { b with inlen := v } = readReg off b := by
  have hreg := regAt_ne_inlen off h
  unfold readReg
  cases hr : regAt off with
  | inlen => exact absurd hr hreg
  | _ => rfl

/-- Another offset than its own does not read `IN[i]`. -/
theorem readReg_inByte_ne (off : Offset) (i : Fin 16) (v : Byte) (b : Block) (h : off ≠ BitVec.ofNat 6 (0x10 + i.val)) :
    readReg off { b with inBuf := b.inBuf.set i v } = readReg off b := by
  have hreg := regAt_ne_inByte off i h
  unfold readReg
  cases hr : regAt off with
  | inByte j =>
    have hij : i.val ≠ j.val := fun hval => hreg (Fin.ext hval ▸ hr)
    exact Vector.getElem_set_ne i.isLt j.isLt hij
  | _ => rfl

/-- The offsets behind `CMD` and `STATUS`: `INLEN`, a byte of `IN`, or one that ignores writes (R51, R57). -/
theorem offset_cases (off : Offset) (h : 0x02 ≤ off.toNat) :
    off = 0x06 ∨ (∃ i : Fin 16, off = BitVec.ofNat 6 (0x10 + i.val)) ∨
    ((0x02 ≤ off.toNat ∧ off.toNat ≤ 0x05) ∨ (0x07 ≤ off.toNat ∧ off.toNat ≤ 0x0F) ∨ 0x20 ≤ off.toNat) := by
  revert off; decide

/-- The offset of `IN[i]` is in 0x10 to 0x1F (R51). -/
theorem inByte_offset_range (i : Fin 16) :
    0x10 ≤ (BitVec.ofNat 6 (0x10 + i.val)).toNat ∧ (BitVec.ofNat 6 (0x10 + i.val)).toNat < 0x20 := by
  revert i; decide

/-- Settles O17: behind `CMD` and `STATUS` a write reaches `INLEN`, one byte of `IN`, or nothing. -/
theorem windowWriteTouchesOneOffset : Obligations.WindowWriteTouchesOneOffset := by
  intro b off off' v hoff
  obtain rfl | ⟨i, rfl⟩ | hro := offset_cases off hoff
  · rw [writeReg_inlen, if_pos (.inl rfl)]
    exact ⟨readReg_inlen_ne off' v b, rfl⟩
  · rw [writeReg_inByte, if_pos (.inr (inByte_offset_range i)), readReg_inByte]
    exact ⟨readReg_inByte_ne off' i v b, Vector.getElem_set_self _⟩
  · have hnot : ¬ (off = 0x06 ∨ (0x10 ≤ off.toNat ∧ off.toNat < 0x20)) := by
      rintro (rfl | hin)
      · revert hro; decide
      · omega
    rw [writeReg_readOnly off v b hro, if_neg hnot]
    exact ⟨fun _ => rfl, rfl⟩

/-! ### The host's turns -/

/-- Settles O12: each read takes its turn and appends the register at its offset, and the map is read off offset by offset. -/
theorem hostReadReturnsTheRegister : Obligations.HostReadReturnsTheRegister := by
  constructor
  · intro s op off rest hm hops hop
    rw [step_host s hm, hostTurn, takeTurn_ops, hops]
    obtain rfl | ⟨rfl, rfl⟩ | ⟨rfl, rfl⟩ := hop
    all_goals exact ⟨_, rfl, rfl, rfl, rfl⟩
  · intro b
    exact ⟨rfl, statusByte_bits b, rfl, rfl, rfl, rfl, rfl, rfl, rfl, rfl, fun off => readReg_reserved off b,
      fun i => readReg_inByte i b, fun i => readReg_outByte i b⟩

/-- Settles O13: the write stores the byte in its register and nowhere else. -/
theorem operandWriteTakesTheByte : Obligations.OperandWriteTakesTheByte := by
  constructor
  · intro s v rest hm hops
    exact ⟨_, step_write hm hops, writeReg_inlen v s.blk, rfl⟩
  · intro s i v rest hm hops
    refine ⟨_, step_write hm hops, ?_⟩
    rw [hostWrite_blk, takeTurn_blk, writeReg_inByte]
    refine ⟨Vector.getElem_set_self _, fun j hj => ?_, rfl, rfl⟩
    exact Vector.getElem_set_ne i.isLt j.isLt fun hval => hj (Fin.ext hval.symm)

/-- Settles O14: the write takes its turn, and the window ignores it. -/
theorem readOnlyWriteIsIgnored : Obligations.ReadOnlyWriteIsIgnored := by
  intro s off v rest hm hops hro
  exact ⟨_, step_write hm hops, writeReg_readOnly off v s.blk hro, rfl⟩

/-- A write to `STATUS` in numbers: bit 4 of `v` is the parity of `v / 16` (R58). -/
theorem writeStatus_eq (v : Byte) (b : Block) :
    writeStatus v b = { b with ovr := if v.toNat / 16 % 2 = 1 then false else b.ovr } := by
  have hbit : v.getLsbD 4 = decide (v.toNat / 16 % 2 = 1) := Nat.testBit_eq_decide_div_mod_eq
  rw [writeStatus, hbit]
  by_cases h : v.toNat / 16 % 2 = 1 <;> simp [h]

/-- Settles O15: the write takes its turn and reaches `OVR` alone. -/
theorem statusWriteClearsOvrOnly : Obligations.StatusWriteClearsOvrOnly := by
  intro s v rest hm hops
  exact ⟨_, step_write hm hops, rfl, writeStatus_eq v s.blk⟩

/-- Settles O16: the write takes its turn; while busy it sets `OVR`, while idle it issues. -/
theorem cmdWriteIssuesOrIsDropped : Obligations.CmdWriteIssuesOrIsDropped := by
  intro s v rest hm hops
  refine ⟨_, step_write hm hops, rfl, fun hb => ?_, fun hb => ?_⟩
  all_goals rw [hostWrite_blk, takeTurn_blk, writeReg_cmd, hb]; rfl

/-- Settles O18: the host's turn refuses the access. -/
theorem wideAccessIsRefused : Obligations.WideAccessIsRefused := by
  intro s off extra rest hm hops
  rw [step_host s hm, hostTurn, takeTurn_ops, hops]

/-! ### The machine goes on -/

/-- A host in spec stays so when all it newly does is to read registers. -/
theorem HostInSpec.of_ops {s t : State} (h : HostInSpec s)
    (hops : ∀ op ∈ t.env.ops, op ∈ s.env.ops ∨ ∃ off, op = .read off) : HostInSpec t := by
  intro off n hmem
  obtain hold | ⟨off', hread⟩ := hops _ hmem
  · exact h off n hold
  · cases hread

/-- What `READOUT` does after its first read is to read (R81). -/
theorem readOutBytes_reads {n : Nat} {op : HostOp} (h : op ∈ readOutBytes n) : ∃ off, op = .read off := by
  obtain ⟨i, -, rfl⟩ := List.mem_map.1 h
  exact ⟨_, rfl⟩

/-- A turn of a host in spec answers a next state and leaves the host in spec (R54, R210). -/
theorem hostTurn_inSpec {s : State} (h : HostInSpec s) : ∃ t, hostTurn s = .next t ∧ HostInSpec t := by
  rw [hostTurn]
  cases hops : s.env.ops with
  | nil => exact ⟨s, rfl, h⟩
  | cons op rest =>
    have hall : ∀ op' ∈ op :: rest, op' ∈ s.env.ops := fun _ hmem => hops ▸ hmem
    have hrest : ∀ op' ∈ rest, op' ∈ s.env.ops := fun op' hmem => hall op' (List.mem_cons_of_mem op hmem)
    cases op with
    | read off => exact ⟨_, rfl, h.of_ops fun op' hmem => .inl (hrest op' hmem)⟩
    | write off v => exact ⟨_, rfl, h.of_ops fun op' hmem => .inl (hrest op' hmem)⟩
    | pollDone =>
      refine ⟨_, rfl, h.of_ops fun op' hmem => .inl ?_⟩
      rw [hostRead_ops] at hmem
      split at hmem
      · exact hrest op' hmem
      · exact hall op' hmem
    | readOutLen =>
      refine ⟨_, rfl, h.of_ops fun op' hmem => ?_⟩
      obtain hread | hmem := List.mem_append.1 hmem
      · exact .inr (readOutBytes_reads hread)
      · exact .inl (hrest op' hmem)
    | wide off n => exact absurd (hall _ List.mem_cons_self) (h off n)

/-- A step with the host in spec answers a next state and leaves the host in spec: only the host's turn changes what it does. -/
theorem step_inSpec {s : State} (h : HostInSpec s) : ∃ t, step s = .next t ∧ HostInSpec t := by
  obtain he | hh | hr | ⟨hb, ts, hts⟩ := moves_cases s
  · exact ⟨_, step_engine s he, h⟩
  · rw [step_host s hh]
    exact hostTurn_inSpec (s := takeTurn s) h
  · exact ⟨_, step_reset s hr, h⟩
  · exact ⟨_, step_idle_engine s ts hb hts, h⟩

/-- Settles O35: every agent's turn answers a next state, and the only refusal is that of a wider access. -/
theorem everyStepGoesOn : Obligations.EveryStepGoesOn := by
  intro s h
  obtain ⟨t, hstep, ht⟩ := step_inSpec h
  refine ⟨⟨t, hstep⟩, fun t' hstep' => ?_⟩
  cases hstep.symm.trans hstep'
  exact ht

/-! ### What an idle block keeps, and what a completion reads and writes -/

/-- A step of an idle block with no transaction and no reset takes its turn and nothing else (R60, R213). -/
theorem step_idle {s : State} (hb : s.blk.busy = false) (hops : s.env.ops = []) (hr : ¬ ResetMoves s) :
    step s = .next (takeTurn s) := by
  obtain ⟨hbusy, -⟩ | hh | hreset | ⟨-, ts, hts⟩ := moves_cases s
  · exact absurd (hb.symm.trans hbusy) Bool.false_ne_true
  · exact step_idle_host s hh hops
  · exact absurd hreset hr
  · exact step_idle_engine s ts hb hts

/-- A run of an idle block with no transaction and no reset takes its turns and nothing else (R60, R213). -/
theorem run_idle (k : Nat) (s : State) (hb : s.blk.busy = false) (hops : s.env.ops = []) (hr : .reset ∉ s.env.turns) :
    Sys2Proof.core.run k s = .next { s with env := { s.env with turns := s.env.turns.drop k } } := by
  induction k generalizing s with
  | zero => rfl
  | succ k ih =>
    have hstep : step s = .next (takeTurn s) := by
      refine step_idle hb hops fun ⟨ts, hts⟩ => hr ?_
      rw [hts]
      exact List.mem_cons_self
    have hrun := ih (takeTurn s) hb hops fun hmem => hr (List.mem_of_mem_tail hmem)
    rw [takeTurn_turns, List.drop_tail] at hrun
    exact run_succ_of_step (M := Sys2Proof.core) hstep hrun

/-- Settles O8: the void turns pass, and an idle run without a transaction and a reset is made of void turns. -/
theorem idleBlockHoldsItsState : Obligations.IdleBlockHoldsItsState := by
  refine ⟨fun s ts hb hts => ?_, step_idle_host, run_idle⟩
  rw [step_idle_engine s ts hb hts, takeTurn, hts, List.tail_cons]

/-- A completion writes every result register from the record alone (R60). -/
theorem complete_sameResults (r : Result) (b b' : Block) : SameResults (complete r b) (complete r b') :=
  ⟨rfl, rfl, rfl, rfl, rfl, rfl, rfl, rfl, rfl, rfl⟩

/-- The record of the command in flight is computed from the latches and the constants (R60). -/
theorem flightResult_congr {s s' : State} (hcmd : s.blk.lcmd = s'.blk.lcmd) (hlen : s.blk.linlen = s'.blk.linlen)
    (hlin : s.blk.lin = s'.blk.lin) (hcfg : s.cfg = s'.cfg) : flightResult s = flightResult s' := by
  rw [flightResult, flightResult, hcmd]
  cases decode s'.blk.lcmd with
  | ok i => exact commandResult_congr i s s' hlen hlin hcfg
  | error r => rfl

/-- Settles O19: both steps complete with the same record, as it is computed from the latches and the constants. -/
theorem completionReadsOnlyTheLatches : Obligations.CompletionReadsOnlyTheLatches := by
  intro s s' t t' he he' hcmd hlen hlin hcfg hstep hstep'
  cases (step_engine s he).symm.trans hstep
  cases (step_engine s' he').symm.trans hstep'
  have hr : flightResult (takeTurn s) = flightResult (takeTurn s') := flightResult_congr hcmd hlen hlin hcfg
  rw [hr]
  exact complete_sameResults _ s.blk s'.blk

/-- Settles O39: what is left of what a step can do is a host write, which changes no result register, and no change at all. -/
theorem onlyCompletionAndResetWriteResults : Obligations.OnlyCompletionAndResetWriteResults := by
  intro s t hstep hne hnr
  obtain ⟨-, ⟨he, -⟩ | ⟨hr, -⟩ | ⟨-, off, v, rest, -, hblk⟩ | ⟨-, -, hblk⟩⟩ := step_cases s t hstep
  · exact absurd he hne
  · exact absurd hr hnr
  · rw [hblk]
    exact writeReg_sameResults off v s.blk
  · rw [hblk]
    exact ⟨rfl, rfl, rfl, rfl, rfl, rfl, rfl, rfl, rfl, rfl⟩

/-! ### From the issue to the completion -/

/-- A number read as a table word is a byte, and its command is the byte's (R79). -/
theorem decode_of_decodeTableWord {w : Nat} {i : Instr} (h : decodeTableWord 8 w = some i) :
    w < 2 ^ 8 ∧ decode (BitVec.ofNat 8 w) = .ok i := by
  rw [decodeTableWord] at h
  split at h
  case isTrue hw =>
    refine ⟨hw.2, ?_⟩
    cases hd : decode (BitVec.ofNat 8 w) with
    | ok j => rw [hd] at h; rw [Option.some.inj h]
    | error r => rw [hd] at h; cases h
  case isFalse => cases h

/-- Settles O6: the engine moves next, and what it finds in flight is the byte of the table word. -/
theorem fetchWordRunsNext : Obligations.FetchWordRunsNext := by
  intro s w i h
  obtain ⟨hw, hd⟩ := decode_of_decodeTableWord h
  have hmod : w % 2 ^ 8 = w := Nat.mod_eq_of_lt hw
  have hdec : decode (s.withFetchWord 8 w).blk.lcmd = .ok i := by rw [withFetchWord_blk, hmod, hd]
  rw [stepRunsDecodedCommand _ i ⟨rfl, .inl ⟨s.env.turns, rfl⟩⟩ hdec, State.withFetchWord, hmod, List.tail_cons]

/-- A run of `m + n` steps is a run of `m` and then one of `n`. -/
theorem run_add {M : Host.Core} {s t : M.State} {m n : Nat} (h : M.run m s = .next t) : M.run (m + n) s = M.run n t := by
  induction m generalizing s with
  | zero =>
    cases h
    rw [Nat.zero_add]
  | succ m ih =>
    rw [Nat.succ_add, Host.Core.run]
    rw [Host.Core.run] at h
    cases hs : M.step s with
    | next s' => rw [hs] at h; exact ih h
    | fault r => rw [hs] at h; cases h
    | refused r => rw [hs] at h; cases h

/-- A step is a run of one. -/
theorem run_one_of_step {M : Host.Core} {s t : M.State} (h : M.step s = .next t) : M.run 1 s = .next t :=
  run_succ_of_step h rfl

/-- The host's turn leaves the turns and the constants. -/
theorem hostTurn_frame {s t : State} (h : hostTurn s = .next t) : t.env.turns = s.env.turns ∧ t.cfg = s.cfg := by
  obtain ⟨-, rfl⟩ | ⟨off, rest, rfl⟩ | ⟨off, v, rest, -, rfl⟩ := hostTurn_cases s t h
  all_goals exact ⟨rfl, rfl⟩

/-- `k` listed turns of the host while a command is in flight change `INLEN`, `IN` and `OVR` of the block only (R63). -/
theorem run_host_busy (k : Nat) (s : State) (ts : List Turn) (hb : s.blk.busy = true) (hspec : HostInSpec s)
    (hts : s.env.turns = List.replicate k .host ++ ts) :
    ∃ u, Sys2Proof.core.run k s = .next u ∧ u.env.turns = ts ∧ u.cfg = s.cfg ∧
      u.blk = { s.blk with inlen := u.blk.inlen, inBuf := u.blk.inBuf, ovr := u.blk.ovr } := by
  induction k generalizing s with
  | zero => exact ⟨s, rfl, hts, rfl, rfl⟩
  | succ k ih =>
    obtain ⟨t, hturn, ht⟩ := hostTurn_inSpec (s := takeTurn s) hspec
    obtain ⟨hturns, hcfg⟩ := hostTurn_frame hturn
    have hblk := hostTurn_busy_blk (takeTurn s) t hb hturn
    have hstep : step s = .next t := (step_host s (.inl ⟨_, hts⟩)).trans hturn
    obtain ⟨u, hrun, huts, hucfg, hublk⟩ :=
      ih t ((congrArg Block.busy hblk).trans hb) ht (by rw [hturns, takeTurn_turns, hts]; rfl)
    refine ⟨u, run_succ_of_step (M := Sys2Proof.core) hstep hrun, huts, hucfg.trans hcfg, ?_⟩
    rw [hblk] at hublk
    exact hublk

/-- The completion of a decoded command is that command's (R60). -/
theorem flightResult_decoded {s : State} {i : Instr} (h : decode s.blk.lcmd = .ok i) : flightResult s = commandResult i s := by
  rw [flightResult, h]

/-- The state after the host's turn in which it issued `w`, when `rest` is what it does next (R59). -/
def issued (w : Byte) (rest : List HostOp) (s : State) : State :=
  { s with blk := issue w s.blk, env := { s.env with turns := s.env.turns.tail, ops := rest } }

/-- The step of a host that issues a command to an idle block (R59). -/
theorem step_issue {s : State} {w : Byte} {rest : List HostOp} (hm : HostMoves s) (hb : s.blk.busy = false)
    (hops : s.env.ops = .write 0x00 w :: rest) :
    step s = .next (issued w rest s) := by
  rw [step_write hm hops, hostWrite, takeTurn_blk, writeReg_cmd, hb]
  rfl

/-- Striking off a turn changes nothing when none is listed. -/
theorem takeTurn_of_nil {s : State} (h : s.env.turns = []) : takeTurn s = s := by
  rw [takeTurn, h, List.tail_nil, ← h]

/-- Settles O43: the issue latches the operand, the host's turns in between keep the latches, and the completion reads these. -/
theorem issuedCommandCompletes : Obligations.IssuedCommandCompletes := by
  constructor
  · intro s w i rest hb hts hops hd
    have hissue := step_issue (.inr ⟨hts, hb⟩) hb hops
    have hnil : (issued w rest s).env.turns = [] := by rw [issued, hts, List.tail_nil]
    have hissued : issued w rest s = { s with blk := issue w s.blk, env := { s.env with ops := rest } } := by
      rw [issued, hts, List.tail_nil, ← hts]
    have hexec : step (issued w rest s) = exec i (issued w rest s) :=
      (stepRunsDecodedCommand _ i ⟨rfl, .inr hnil⟩ hd).trans (congrArg (exec i) (takeTurn_of_nil hnil))
    have hcomplete := run_one_of_step (M := Sys2Proof.core) (hexec.trans (exec_eq i _))
    refine ⟨_, run_succ_of_step (M := Sys2Proof.core) hissue hcomplete, rfl, ?_⟩
    exact (congrArg (exec i) hissued).symm.trans (exec_eq i _)
  · intro s w i rest k ts hb hspec hts hops hd
    have hissue := step_issue (.inl ⟨_, hts⟩) hb hops
    obtain ⟨u, hrun, huts, hucfg, hublk⟩ :=
      run_host_busy k (issued w rest s) (.engine :: ts) rfl ((everyStepGoesOn s hspec).2 _ hissue) (by rw [issued, hts]; rfl)
    have hrunIssue : Sys2Proof.core.run (1 + k) s = .next u :=
      (run_add (run_one_of_step (M := Sys2Proof.core) hissue)).trans hrun
    have hengine : EngineMoves u := ⟨congrArg Block.busy hublk, .inl ⟨ts, huts⟩⟩
    have hrunAll := (run_add hrunIssue).trans (run_one_of_step (M := Sys2Proof.core) (step_engine u hengine))
    have hresult : flightResult (takeTurn u) = commandResult i { s with blk := issue w s.blk } := by
      have hcmd : u.blk.lcmd = w := congrArg Block.lcmd hublk
      have hlen : u.blk.linlen = s.blk.inlen := congrArg Block.linlen hublk
      have hlin : u.blk.lin = s.blk.inBuf := congrArg Block.lin hublk
      rw [← flightResult_decoded (s := { s with blk := issue w s.blk }) hd]
      exact flightResult_congr hcmd hlen hlin hucfg
    refine ⟨u, _, _, hrunIssue, hublk, hrunAll, rfl, rfl, exec_eq i _, ?_, rfl, rfl, rfl⟩
    show SameResults (complete (flightResult (takeTurn u)) u.blk) (complete (commandResult i _) _)
    rw [hresult]
    exact complete_sameResults _ _ _

end Sys2Proof.Machine

/-! PROOFS. The encoding: a command word and its fields, the encoder and the decoder as inverses, the rows of R76, the illegal words
of R77, and the host's round of `WAITDONE`. -/

namespace Sys2Proof

/-! ### The fields of a command word -/

/-- The fields of a word, put together again, are the word (R70). -/
theorem packFields_splitFields (w : Byte) : packFields (splitFields w) = w := by
  apply BitVec.eq_of_getLsbD_eq
  intro i hi
  simp only [packFields, splitFields, BitVec.getLsbD_append, BitVec.getLsbD_extractLsb', BitVec.getLsbD_ofBool]
  interval_cases i <;> simp

theorem splitFields_op_toNat (w : Byte) : (splitFields w).op.toNat = w.toNat % 4 := by
  simp [splitFields]

theorem splitFields_var_toNat (w : Byte) : (splitFields w).var.toNat = w.toNat / 4 % 4 := by
  simp [splitFields, Nat.shiftRight_eq_div_pow]

theorem splitFields_nv (w : Byte) : (splitFields w).nv = true ↔ w.toNat / 16 % 2 = 1 := by
  simp [splitFields, BitVec.getLsbD, Nat.testBit_eq_decide_div_mod_eq]

theorem splitFields_rsv_toNat (w : Byte) : (splitFields w).rsv.toNat = w.toNat / 64 := by
  simp [splitFields, Nat.shiftRight_eq_div_pow]
  omega

/-- What legal fields are (R71, R73, R75). -/
theorem CommandFields.wf_iff (f : CommandFields) :
    f.wf = true ↔ f.var.toNat < 2 ∧ f.rsv.toNat = 0 ∧ (f.nv = true → f.op.toNat = 3) := by
  simp [CommandFields.wf, CommandFields.variantDefined, CommandFields.reservedZero, CommandFields.nvAllowed,
    ← BitVec.toNat_inj, and_assoc, ← Bool.not_eq_true, imp_iff_not_or]

/-! ### The decoder and the encoder -/

/-- A word decodes exactly to the command its fields name, and only when they are legal (R76, R77). -/
theorem decode_ok_iff (w : Byte) (i : Instr) :
    decode w = .ok i ↔ (splitFields w).wf = true ∧ assemble (splitFields w) = i := by
  rw [decode, CommandFields.wf]
  cases (splitFields w).variantDefined <;> cases (splitFields w).reservedZero <;> cases (splitFields w).nvAllowed <;> simp

theorem exists_decode_ok_iff (w : Byte) : (∃ i, decode w = .ok i) ↔ (splitFields w).wf = true := by
  simp only [decode_ok_iff, exists_and_left, exists_eq', and_true]

theorem exists_decode_error_iff (w : Byte) : (∃ r, decode w = .error r) ↔ ¬ (splitFields w).wf = true := by
  rw [← exists_decode_ok_iff]
  cases decode w <;> simp

/-- The operand kind of a bit has that bit (R74). -/
@[simp] theorem argKindOf_bit (b : Bool) : (argKindOf b).bit = b := by cases b <;> rfl

/-- Legal fields are the fields of the command they name: `VAR` and `OP` name the command, `RSV` is zero, and `NV` is zero where the
command has no such qualifier (R71 to R76). -/
theorem fields_assemble (f : CommandFields) (h : f.wf = true) : (assemble f).fields = f := by
  obtain ⟨hvar, hrsv, hnv⟩ := f.wf_iff.1 h
  obtain ⟨op, var, nv, argk, rsv⟩ := f
  obtain rfl : rsv = 0#2 := BitVec.eq_of_toNat_eq hrsv
  have hvars : ∀ v : BitVec 2, v.toNat < 2 → v = 0#2 ∨ v = 1#2 := by decide
  have hops : ∀ o : BitVec 2, (o = 0#2 ∨ o = 1#2 ∨ o = 2#2) ∨ o = 3#2 := by decide
  obtain rfl | rfl := hvars var hvar <;> obtain hother | rfl := hops op
  case inl.inr | inr.inr => simp [assemble, Instr.fields]
  all_goals
    obtain rfl : nv = false := by
      cases nv
      · rfl
      · obtain rfl | rfl | rfl := hother <;> cases hnv rfl
    obtain rfl | rfl | rfl := hother <;> simp [assemble, Instr.fields]

/-- A command is well formed, and its word decodes to it, by the round trip of each command (R70 to R76). -/
theorem roundTrip (i : Instr) : Laws.RoundTrip.Statement i :=
  match i with
  | .checksumEan13 k => Laws.RoundTrip.checksumEan13 k
  | .isvalidEan13 k => Laws.RoundTrip.isvalidEan13 k
  | .fixEan13 k => Laws.RoundTrip.fixEan13 k
  | .encodeEan13 nv k => Laws.RoundTrip.encodeEan13 nv k
  | .checksumEan8 k => Laws.RoundTrip.checksumEan8 k
  | .isvalidEan8 k => Laws.RoundTrip.isvalidEan8 k
  | .fixEan8 k => Laws.RoundTrip.fixEan8 k
  | .encodeEan8 nv k => Laws.RoundTrip.encodeEan8 nv k

theorem decode_encode (i : Instr) : decode (encode i) = .ok i := (roundTrip i).2

/-- The word of the command that a word decodes to is that word (R70 to R76). -/
theorem encode_of_decode {w : Byte} {i : Instr} (h : decode w = .ok i) : encode i = w := by
  obtain ⟨hwf, rfl⟩ := (decode_ok_iff w i).1 h
  rw [encode, fields_assemble _ hwf, packFields_splitFields]

theorem decode_of_encode {w : Byte} {i : Instr} (h : encode i = w) : decode w = .ok i := by
  rw [← h, decode_encode]

/-- Settles O2: one direction command by command, the other by the fields, which both functions agree on. -/
theorem decodeAndEncodeAgree : Obligations.DecodeAndEncodeAgree :=
  ⟨roundTrip, fun _ _ => encode_of_decode⟩

/-- Settles O1: each of the words is the encoder's for its command. -/
theorem tableWordsDecode : Obligations.TableWordsDecode := by
  unfold Obligations.TableWordsDecode
  and_intros <;> exact decode_of_encode rfl

/-- The commands with every operand field (R76). -/
def commands : List Instr :=
  [.text, .nonText].flatMap fun k =>
    [.checksumEan13 k, .isvalidEan13 k, .fixEan13 k, .encodeEan13 false k, .encodeEan13 true k,
     .checksumEan8 k, .isvalidEan8 k, .fixEan8 k, .encodeEan8 false k, .encodeEan8 true k]

theorem mem_commands (i : Instr) : i ∈ commands := by
  cases i with
  | encodeEan13 nv k | encodeEan8 nv k => cases nv <;> cases k <;> decide
  | _ k => cases k <;> decide

/-! ### The rows of R76 as match and mask -/

/-- The rows of R76, each with its match and its mask. -/
def tableRows : List (Byte × Byte) :=
  [(0x00, 0xDF), (0x01, 0xDF), (0x02, 0xDF), (0x03, 0xCF), (0x04, 0xDF), (0x05, 0xDF), (0x06, 0xDF), (0x07, 0xCF)]

/-- The word matches the row (R76). -/
def matchesRow (w : Byte) (row : Byte × Byte) : Bool := w &&& row.2 == row.1

theorem extractLsb'_and_three (w : Byte) (start : Nat) : w.extractLsb' start 2 &&& 3#2 = w.extractLsb' start 2 :=
  BitVec.and_allOnes

/-- Mask 0xDF leaves out `ARGK`. -/
theorem splitFields_and_0xDF (w : Byte) : splitFields (w &&& 0xDF) = { splitFields w with argk := false } := by
  simp [splitFields, BitVec.extractLsb'_and, extractLsb'_and_three]

/-- Mask 0xCF leaves out `ARGK` and `NV`. -/
theorem splitFields_and_0xCF (w : Byte) : splitFields (w &&& 0xCF) = { splitFields w with nv := false, argk := false } := by
  simp [splitFields, BitVec.extractLsb'_and, extractLsb'_and_three]

/-- A row leaves `ARGK` open, and `NV` when its operation is `ENCODE`; its match has legal fields (R76). -/
theorem tableRows_masks : ∀ row ∈ tableRows, (splitFields row.1).wf = true ∧
    (row.2 = 0xDF ∨ row.2 = 0xCF ∧ (splitFields row.1).op = 3#2) := by
  intro row hrow
  fin_cases hrow <;> decide

/-- A word that matches a row is legal: the fields the row leaves open make no word illegal. -/
theorem wf_of_matchesRow {w : Byte} {row : Byte × Byte} (hrow : row ∈ tableRows) (h : matchesRow w row = true) :
    (splitFields w).wf = true := by
  have hmatch : w &&& row.2 = row.1 := beq_iff_eq.1 h
  obtain ⟨hwf, hmask | ⟨hmask, hop⟩⟩ := tableRows_masks row hrow
  · rw [← hmatch, hmask, splitFields_and_0xDF] at hwf
    exact hwf
  · rw [← hmatch, hmask, splitFields_and_0xCF] at hwf hop
    obtain ⟨hvar, hrsv, -⟩ := (CommandFields.wf_iff _).1 hwf
    exact (CommandFields.wf_iff _).2 ⟨hvar, hrsv, fun _ => congrArg BitVec.toNat hop⟩

/-- The word of each command matches the command's row (R76). -/
theorem exists_row_of_encode (i : Instr) : ∃ row ∈ tableRows, matchesRow (encode i) row = true := by
  have hall : ∀ i ∈ commands, ∃ row ∈ tableRows, matchesRow (encode i) row = true := by decide
  exact hall i (mem_commands i)

/-- No two rows agree on the bits that both of them fix. -/
theorem tableRows_pairwise : tableRows.Pairwise fun a b => a.1 &&& b.2 ≠ b.1 &&& a.2 := by
  decide

/-- No word matches two rows (R76). -/
theorem matchingRows_length_le_one (w : Byte) : (tableRows.filter (matchesRow w)).length ≤ 1 := by
  have hpair := tableRows_pairwise.filter (matchesRow w)
  have hmatch : ∀ row ∈ tableRows.filter (matchesRow w), w &&& row.2 = row.1 :=
    fun row hrow => beq_iff_eq.1 (List.mem_filter.1 hrow).2
  match htwo : tableRows.filter (matchesRow w) with
  | [] | [_] => simp
  | a :: b :: _ =>
    rw [htwo] at hpair hmatch
    have ha : w &&& a.2 = a.1 := hmatch a (by simp)
    have hb : w &&& b.2 = b.1 := hmatch b (by simp)
    refine absurd ?_ ((List.pairwise_cons.1 hpair).1 b (by simp))
    rw [← ha, ← hb, BitVec.and_assoc, BitVec.and_assoc, BitVec.and_comm a.2]

/-- Settles O3: at most one row matches, and one does exactly for the legal words. -/
theorem legalWordMatchesOneRow : Obligations.LegalWordMatchesOneRow := by
  intro w
  refine ⟨?_, matchingRows_length_le_one w⟩
  show _ ↔ (tableRows.filter (matchesRow w)).length = 1
  constructor
  · rintro ⟨i, hi⟩
    obtain ⟨row, hrow, hmatch⟩ := exists_row_of_encode i
    rw [encode_of_decode hi] at hmatch
    have hpos := List.length_pos_of_mem (List.mem_filter.2 ⟨hrow, hmatch⟩)
    exact Nat.le_antisymm (matchingRows_length_le_one w) hpos
  · intro hone
    obtain ⟨row, hmem⟩ := List.exists_mem_of_length_pos (hone ▸ Nat.one_pos)
    obtain ⟨hrow, hmatch⟩ := List.mem_filter.1 hmem
    exact (exists_decode_ok_iff w).2 (wf_of_matchesRow hrow hmatch)

/-! ### The illegal words of R77 -/

/-- The illegal words are those whose fields are not legal (R77). -/
theorem illegalWord_iff (w : Byte) : Machine.IllegalWord w ↔ ¬ (splitFields w).wf = true := by
  rw [CommandFields.wf_iff, splitFields_var_toNat, splitFields_rsv_toNat, splitFields_nv, splitFields_op_toNat,
    Machine.IllegalWord]
  omega

/-- The table numbers of the legal words are the words of the commands (R76, R79). -/
theorem decodeTableWord_eq_some_iff (n : Nat) (i : Instr) : decodeTableWord 8 n = some i ↔ (encode i).toNat = n := by
  constructor
  · intro h
    obtain ⟨hn, hd⟩ := Machine.decode_of_decodeTableWord h
    rw [encode_of_decode hd, BitVec.toNat_ofNat, Nat.mod_eq_of_lt hn]
  · rintro rfl
    simp [decodeTableWord, (encode i).isLt, decode_encode]

/-- The legal ones among the 256 words are the words of the commands, each of them once. -/
theorem legalWords_perm :
    ((List.range 256).filter fun n => (decodeTableWord 8 n).isSome).Perm (commands.map fun i => (encode i).toNat) := by
  refine (List.perm_ext_iff_of_nodup (List.nodup_range.filter _) (by decide)).2 fun n => ?_
  simp only [List.mem_filter, List.mem_range, List.mem_map, Option.isSome_iff_exists, decodeTableWord_eq_some_iff]
  constructor
  · rintro ⟨-, i, hi⟩
    exact ⟨i, mem_commands i, hi⟩
  · rintro ⟨i, -, rfl⟩
    exact ⟨(encode i).isLt, i, rfl⟩

/-- Settles O4: a word is rejected for its fields, and 256 words less the 20 legal ones are 236. -/
theorem illegalWordsRejected : Obligations.IllegalWordsRejected := by
  constructor
  · intro w
    rw [exists_decode_error_iff, illegalWord_iff]
  · have hsplit := List.length_eq_length_filter_add (l := List.range 256) fun n => (decodeTableWord 8 n).isSome
    have hlegal : commands.length = 20 := rfl
    simp only [legalWords_perm.length_eq, List.length_range, List.length_map, hlegal, Option.not_isSome] at hsplit
    omega

end Sys2Proof

namespace Sys2Proof.Machine

/-! ### The host's round of `WAITDONE` -/

/-- The step of a host in `WAITDONE` reads `STATUS`, and the host goes on only when `DONE` was 1 (R81). -/
theorem step_pollDone {s : State} {rest : List HostOp} (hm : HostMoves s) (hops : s.env.ops = .pollDone :: rest) :
    step s = .next (hostRead 0x01 (if s.blk.done then rest else .pollDone :: rest) (takeTurn s)) := by
  rw [step_host s hm, hostTurn, takeTurn_ops, hops]
  rfl

/-- Settles O45: one read of `STATUS`, whose `DONE` bit decides what the host does next. -/
theorem waitDonePollsStatus : Obligations.WaitDonePollsStatus := by
  intro s rest hm hops
  refine ⟨_, step_pollDone hm hops, rfl, rfl, fun hdone => ?_, fun hdone => ?_⟩
  · rw [hostRead_ops, hdone, if_pos rfl]
  · rw [hostRead_ops, hdone, if_neg Bool.false_ne_true, hops]

end Sys2Proof.Machine

/-! PROOFS. Admission: what the front end does with a command word that is no command. -/

namespace Sys2Proof.Machine

/-- The completion of an illegal word is by `ILLEGAL_CMD`: the word does not decode, and no operand is read (R77, R101). -/
theorem flightResult_illegal {s : State} (h : IllegalWord s.blk.lcmd) : flightResult s = raise .illegalCmd := by
  obtain ⟨r, hr⟩ := (illegalWordsRejected.1 s.blk.lcmd).2 h
  rw [flightResult, hr]

/-- Settles O7: the engine's step completes the word in flight, and an illegal one completes by `ILLEGAL_CMD`. -/
theorem illegalWordEndsInIllegalCmd : Obligations.IllegalWordEndsInIllegalCmd := by
  intro s he hw
  refine ⟨_, step_engine s he, ?_⟩
  rw [flightResult_illegal (s := takeTurn s) hw]
  exact completed_raise s .illegalCmd

end Sys2Proof.Machine


/-! PROOFS. The checksum arithmetic and the commands `CHECKSUM`, `ISVALID` and `FIX`: their completions, and the laws between them. -/

namespace Sys2Proof.Machine

/-! ### The sum and the check value -/

/-- Settles O26: the sum of the digits' weights bounds every weighted sum, and nines reach the bound. -/
theorem accumulatorIsExact : Obligations.AccumulatorIsExact :=
  ⟨fun v ds h => accum_toNat v ds h.le, fun ds => ⟨weightedSum_le .ean13 ds, weightedSum_le .ean8 ds⟩, by decide, by decide⟩

/-- A sum and its check value add up to a multiple of 10 (R123). -/
theorem add_checkValue_mod (ten : Bool) (n : Nat) : (n + checkValue ten n) % 10 = 0 := by
  unfold checkValue
  split
  · cases ten <;> simpa
  · omega

/-- With `P_CHECK_TEN = false` the check value is one digit (R123). -/
theorem checkValue_false_le (n : Nat) : checkValue false n ≤ 9 := by
  have hle := checkValue_le false n
  have hten : checkValue false n ≠ 10 := by simp [checkValue_eq_ten]
  omega

/-- With `P_CHECK_TEN = true` the check value is never 0 (R123). -/
theorem checkValue_true_pos (n : Nat) : 1 ≤ checkValue true n := by
  unfold checkValue
  split
  · decide
  · omega

/-- Settles O27: `CHECK` is the check value of the accumulator, for which the three facts hold. -/
theorem checkValueCompletesTheSum : Obligations.CheckValueCompletesTheSum := by
  intro acc
  simp only [check_toNat]
  exact ⟨fun ten => add_checkValue_mod ten _, checkValue_false_le _, checkValue_true_pos _, checkValue_le true _⟩

/-! ### The three operations complete -/

/-- `CHECKSUM` accepts the payload length alone (R104, R125). -/
theorem failsAdmission_checksumOf (v : Variant) :
    FailsAdmission (fun k => exec (checksumOf v k)) [payloadLen v] 1 (BitVec.ofNat 8 (payloadLen v)) 0 :=
  failsAdmission_of_admit _
    (fun s ds => { acc := payloadAccum v ds, chk := check s.cfg.checkTen (payloadAccum v ds)
                   out := chkstr (check s.cfg.checkTen (payloadAccum v ds)) })
    (.single (payloadLen v)) _ _ _ _ (exec_checksumOf v) (fun n => single_has n _) rfl

/-- `ISVALID` accepts the full length alone (R104, R126). -/
theorem failsAdmission_isvalidOf (v : Variant) :
    FailsAdmission (fun k => exec (isvalidOf v k)) [fullLen v] 1 (BitVec.ofNat 8 (fullLen v)) 0 :=
  failsAdmission_of_admit _
    (fun s ds => { valid := checkMatches v (check s.cfg.checkTen (payloadAccum v ds)) ds
                   acc := payloadAccum v ds, chk := check s.cfg.checkTen (payloadAccum v ds) })
    (.single (fullLen v)) _ _ _ _ (exec_isvalidOf v) (fun n => single_has n _) rfl

/-- `FIX` accepts the payload length and the full length (R104, R127). -/
theorem failsAdmission_fixOf (v : Variant) :
    FailsAdmission (fun k => exec (fixOf v k)) [payloadLen v, fullLen v] 2 (BitVec.ofNat 8 (payloadLen v))
      (BitVec.ofNat 8 (fullLen v)) :=
  failsAdmission_of_admit _
    (fun s ds => { acc := payloadAccum v ds, chk := check s.cfg.checkTen (payloadAccum v ds)
                   out := (operand s.blk).take (payloadLen v) ++ chkstr (check s.cfg.checkTen (payloadAccum v ds)) })
    (.either (payloadLen v) (fullLen v)) _ _ _ _ (exec_fixOf v) (fun n => either_has n _ _) rfl

/-- Settles O21: the record of `CHECKSUM` holds the weighted sum, its check value and the check string. -/
theorem checksumCompletes : Obligations.ChecksumCompletes := by
  refine ⟨failsAdmission_checksumOf .ean13, failsAdmission_checksumOf .ean8, fun v s ds hl hlen => ?_⟩
  refine ⟨_, exec_checksumOf v .text s, ?_⟩
  rw [checksumResult_digits v s ds hl hlen]
  have hstr := (checkString_length (checkValue s.cfg.checkTen (weightedSum v ds))).2
  exact ⟨payloadAccum_toNat v ds, check_payloadAccum _ v ds, completed_of_complete s _ (hstr.trans (by decide))⟩

/-- Settles O22: the record of `ISVALID` compares the last digit with the check value of the payload. -/
theorem isvalidCompletes : Obligations.IsvalidCompletes := by
  refine ⟨failsAdmission_isvalidOf .ean13, failsAdmission_isvalidOf .ean8, fun v s ds hl hlen => ?_⟩
  refine ⟨_, exec_isvalidOf v .text s, ?_⟩
  rw [isvalidResult_digits v s ds hl hlen]
  exact ⟨payloadAccum_toNat v ds, check_payloadAccum _ v ds, checkMatches_iff _ v ds, completed_of_complete s _ (Nat.zero_le _)⟩

/-- A payload and a check string fit into `OUT` (R127, R159). -/
theorem payload_add_checkString_le (v : Variant) (k : Nat) : payloadLen v + (checkString k).length ≤ 32 := by
  have hpay : payloadLen v ≤ 12 := by cases v <;> decide
  have hstr := checkString_length k
  omega

/-- Settles O23: the record of `FIX` depends on the operand's payload alone. -/
theorem fixCompletes : Obligations.FixCompletes := by
  refine ⟨failsAdmission_fixOf .ean13, failsAdmission_fixOf .ean8, fun v s ds hl hlen => ?_⟩
  refine ⟨_, exec_fixOf v .text s, ?_⟩
  rw [fixResult_digits v s ds hl hlen]
  have hfit := payload_add_checkString_le v (checkValue s.cfg.checkTen (weightedSum v ds))
  refine ⟨payloadAccum_toNat v ds, check_payloadAccum _ v ds, completed_of_complete s _ ?_⟩
  simp only [List.length_append, List.length_take]
  omega

/-! ### A payload and one more digit -/

/-- The full length is one more than the payload length (R102). -/
theorem fullLen_eq_succ (v : Variant) : fullLen v = payloadLen v + 1 := by
  cases v <;> rfl

/-- The characters of a payload and those of one more digit make the characters of the full barcode (R107). -/
theorem digitString_concat (p : List Digit) (x : Digit) : digitString p ++ [dchar x] = digitString (p ++ [x]) :=
  (digitString_append p [x]).symm

/-- The record `FIX` writes for a payload (R127). -/
def fixRecord (ten : Bool) (v : Variant) (p : List Digit) : Result :=
  { acc := accum v p, chk := check ten (accum v p)
    out := digitString p ++ checkString (checkValue ten (weightedSum v p)) }

/-- `FIX` of an admitted operand writes the record of its payload (R127). -/
theorem fixResult_eq_fixRecord_take {v : Variant} {s : State} {ds : List Digit} (hl : Latched s.blk (digitString ds))
    (hlen : ds.length = payloadLen v ∨ ds.length = fullLen v) :
    fixResult v .text s = fixRecord s.cfg.checkTen v (ds.take (payloadLen v)) := by
  rw [fixResult_digits v s ds hl hlen, fixRecord, ← digitString_take, weightedSum_take]
  rfl

section Payload
variable {v : Variant} {p : List Digit} (hp : p.length = payloadLen v)
include hp

theorem length_payload_concat (x : Digit) : (p ++ [x]).length = fullLen v := by
  rw [List.length_append, hp, fullLen_eq_succ, List.length_singleton]

/-- The digit behind the payload is not part of the weighted sum (R122). -/
theorem weightedSum_payload_concat (x : Digit) : weightedSum v (p ++ [x]) = weightedSum v p := by
  rw [← weightedSum_take, List.take_left' hp]

/-- The digit behind the payload is compared with the payload's check value (R126). -/
theorem checkDigitRight_payload_concat (ten : Bool) (x : Digit) :
    CheckDigitRight ten v (p ++ [x]) ↔ x.val = checkValue ten (weightedSum v p) := by
  have hx : (p ++ [x])[payloadLen v]? = some x := by rw [← hp, List.getElem?_concat_length]
  simp [CheckDigitRight, hx, weightedSum_payload_concat hp]

/-- `CHECKSUM` of a payload leaves its check string (R125). -/
theorem exec_checksumOf_payload {s : State} (hl : Latched s.blk (digitString p)) :
    ∃ t, exec (checksumOf v .text) s = .next t ∧
      outString t.blk = checkString (checkValue s.cfg.checkTen (weightedSum v p)) := by
  obtain ⟨t, ht, -, -, hc⟩ := checksumCompletes.2.2 v s p hl hp
  have hstr := (checkString_length (checkValue s.cfg.checkTen (weightedSum v p))).2
  exact ⟨t, ht, outString_of_completed s t _ hc (hstr.trans (by decide))⟩

/-- `ISVALID` of a full barcode compares its last digit with the payload's check value, without an error (R126). -/
theorem exec_isvalidOf_barcode {s : State} {x : Digit} (hl : Latched s.blk (digitString p ++ [dchar x])) :
    ∃ t, exec (isvalidOf v .text) s = .next t ∧ t.blk.err = false ∧
      (t.blk.valid = true ↔ x.val = checkValue s.cfg.checkTen (weightedSum v p)) := by
  rw [digitString_concat] at hl
  obtain ⟨t, ht, -, -, hvalid, hc⟩ := isvalidCompletes.2.2 v s _ hl (length_payload_concat hp x)
  exact ⟨t, ht, hc.err, hvalid.trans (checkDigitRight_payload_concat hp _ x)⟩

/-- `ENCODE` of a full barcode whose last digit is not the payload's check value ends in `INVALID_BARCODE` (R161). -/
theorem exec_encodeOf_wrong {s : State} {x : Digit} (hl : Latched s.blk (digitString p ++ [dchar x]))
    (hx : x.val ≠ checkValue s.cfg.checkTen (weightedSum v p)) :
    ∃ t, exec (encodeOf v false .text) s = .next t ∧ t.blk.errcode = 5 := by
  rw [digitString_concat] at hl
  have hwrong := mt (checkDigitRight_payload_concat hp s.cfg.checkTen x).1 hx
  refine ⟨_, exec_encodeOf v false .text s, ?_⟩
  rw [encodeResult_wrong v s _ hl (length_payload_concat hp x) hwrong]
  rfl

/-- `FIX` of the payload leaves the payload's record (R127). -/
theorem exec_fixOf_payload {s : State} (hl : Latched s.blk (digitString p)) :
    exec (fixOf v .text) s = finish s (fixRecord s.cfg.checkTen v p) := by
  rw [exec_fixOf, fixResult_eq_fixRecord_take hl (.inl hp), List.take_of_length_le hp.le]

/-- `FIX` of a full barcode leaves its payload's record, whatever the last digit (R127). -/
theorem exec_fixOf_barcode {s : State} {x : Digit} (hl : Latched s.blk (digitString p ++ [dchar x])) :
    exec (fixOf v .text) s = finish s (fixRecord s.cfg.checkTen v p) := by
  rw [digitString_concat] at hl
  rw [exec_fixOf, fixResult_eq_fixRecord_take hl (.inr (length_payload_concat hp x)), List.take_left' hp]

/-- The completion by a payload's `FIX` record leaves the payload and its check string in `OUT` (R60, R127). -/
theorem finish_fixRecord (ten : Bool) (s : State) :
    ∃ t, finish s (fixRecord ten v p) = .next t ∧
      outString t.blk = digitString p ++ checkString (checkValue ten (weightedSum v p)) ∧
      t.blk.outlen.toNat = payloadLen v + (checkString (checkValue ten (weightedSum v p))).length := by
  have hlen : (fixRecord ten v p).out.length = payloadLen v + (checkString (checkValue ten (weightedSum v p))).length := by
    simp [fixRecord, hp]
  have hfit : (fixRecord ten v p).out.length ≤ 32 := by
    have := payload_add_checkString_le v (checkValue ten (weightedSum v p))
    omega
  have hc := completed_of_complete s _ (hfit.trans (by decide))
  exact ⟨_, rfl, outString_of_completed s _ _ hc hfit, hc.outlen.trans hlen⟩

end Payload

/-! ### The laws between the operations (R129) -/

/-- Settles O28: the check value is a digit, and it is the one that `ISVALID` compares the last digit with. -/
theorem checksumThenIsvalid : Obligations.ChecksumThenIsvalid := by
  intro v s p hten hl hp
  obtain ⟨t, ht, hout⟩ := exec_checksumOf_payload hp hl
  have hlt : checkValue false (weightedSum v p) < 10 := Nat.lt_succ_of_le (checkValue_false_le _)
  refine ⟨t, ⟨_, hlt⟩, ht, ?_, fun s' x hten' hl' => ?_⟩
  · rw [hout, hten, ← checkString_digit]
  · obtain ⟨t', ht', -, hvalid⟩ := exec_isvalidOf_barcode hp hl'
    refine ⟨t', ht', hvalid.trans ?_⟩
    rw [hten', Fin.ext_iff]

/-- Settles O29: a valid barcode's last digit is the check string that `FIX` puts behind the payload, and `FIX` reads the payload
alone. -/
theorem fixRepairsTheLastDigit : Obligations.FixRepairsTheLastDigit := by
  refine ⟨fun v s sf t p c x hp hcfg hl ht hvalid hlf => ?_, fun v s s' p x hp hcfg hl hl' => ?_⟩
  · obtain ⟨t', ht', -, hiff⟩ := exec_isvalidOf_barcode hp hl
    cases ht.symm.trans ht'
    obtain ⟨tf, htf, hout, -⟩ := finish_fixRecord hp sf.cfg.checkTen sf
    refine ⟨tf, (exec_fixOf_barcode hp hlf).trans htf, ?_⟩
    rw [hout, hcfg, ← hiff.1 hvalid, checkString_digit]
  · refine ⟨_, _, exec_fixOf_payload hp hl, exec_fixOf_barcode hp hl', ?_⟩
    rw [hcfg]
    exact complete_sameResults _ _ _

/-- Settles O30: the check value is 10, which no last digit equals and whose string has two characters. -/
theorem checkTenAtMultiplesOfTen : Obligations.CheckTenAtMultiplesOfTen := by
  intro v s p hten hp hsum
  have hvalue : checkValue s.cfg.checkTen (weightedSum v p) = 10 := (checkValue_eq_ten _ _).2 ⟨hten, hsum⟩
  have hstr : checkString 10 = ascii "10" := rfl
  have hlen : payloadLen v + (ascii "10").length = fullLen v + 1 := by rw [fullLen_eq_succ]; rfl
  have hfix : ∃ t, finish s (fixRecord s.cfg.checkTen v p) = .next t ∧ outString t.blk = digitString p ++ ascii "10" ∧
      t.blk.outlen.toNat = fullLen v + 1 := by
    have h := finish_fixRecord hp s.cfg.checkTen s
    rwa [hvalue, hstr, hlen] at h
  refine ⟨fun hl => ?_, fun x hl => ?_, fun hl => ?_⟩
  · refine ⟨?_, by rwa [exec_fixOf_payload hp hl]⟩
    have h := exec_checksumOf_payload hp hl
    rwa [hvalue, hstr] at h
  · have hx : x.val ≠ checkValue s.cfg.checkTen (weightedSum v p) := by omega
    refine ⟨?_, by rwa [exec_fixOf_barcode hp hl], exec_encodeOf_wrong hp hl hx⟩
    obtain ⟨t, ht, herr, hvalid⟩ := exec_isvalidOf_barcode hp hl
    exact ⟨t, ht, Bool.eq_false_iff.2 (mt hvalid.1 hx), herr⟩
  · have hlong : s.blk.linlen.toNat = fullLen v + 1 := by
      rw [hl.1, List.length_append, digitString_length, hp, hlen]
    obtain ⟨t, ht, hc⟩ := (failsAdmission_isvalidOf v).length s (by simp [hlong])
    exact ⟨t, ht, hc.errcode⟩

end Sys2Proof.Machine

/-! PROOFS. The font encoding: the length of a font string and the place of each symbol in it, the default fonts, and the command
`ENCODE`. -/

namespace Sys2Proof.Machine

/-! ### The length of a font string (R159) -/

/-- A font string has at least one byte for each digit (R150, R159). -/
theorem length_le_fontString {tables len : Nat} (F : Font tables (len + 1)) (ds : List Digit) (h : ds.length = len + 1) :
    len + 1 ≤ (fontString F ds).length := by
  obtain ⟨d, rfl⟩ := exists_ofFn _ ds h
  rw [fontString_ofFn]
  simpa using (flatMap_symbols_length (List.finRange (len + 1)) fun i => F.symbolAt (d 0) i (d i)).1

/-- The encoded string of a full barcode has one or two bytes for each digit (R159). -/
theorem fontenc_length_bounds (c : Config) (v : Variant) (ds : List Digit) (h : ds.length = fullLen v) :
    fullLen v ≤ (fontenc c v ds).length ∧ (fontenc c v ds).length ≤ 2 * fullLen v := by
  cases v with
  | ean13 => exact ⟨length_le_fontString c.font13 ds h, fontString_length_le c.font13 ds h⟩
  | ean8 => exact ⟨length_le_fontString c.font8 ds h, fontString_length_le c.font8 ds h⟩

/-- Each table's symbols are all as long as its symbol of digit 0. -/
def UniformTables {tables : Nat} (ts : Vector (Vector Symbol 10) tables) : Prop :=
  ∀ (t : Fin tables) (d : Digit), ts[t][d].bytes.length = ts[t][(0 : Digit)].bytes.length

/-- With tables of one symbol length each, the length of a font row depends on the table indices alone. -/
theorem fontRow_length_of_uniform {tables : Nat} {ts : Vector (Vector Symbol 10) tables} (hu : UniformTables ts)
    (row : List (Fin tables)) (ds : List Digit) (h : ds.length = row.length) :
    (fontRow ts row ds).length = (row.map fun t => ts[t][(0 : Digit)].bytes.length).sum := by
  induction row generalizing ds with
  | nil => rfl
  | cons t row ih =>
    cases ds with
    | nil => cases h
    | cons d ds =>
      rw [fontRow, List.length_append, hu t d, ih ds (Nat.succ.inj h), List.map_cons, List.sum_cons]

/-- With tables of one symbol length each, all rows of the order matrix giving the same total, a font string has that length,
whatever the digits. -/
theorem fontString_length_of_uniform {tables len n : Nat} {F : Font tables (len + 1)} (hu : UniformTables F.ts)
    (hrow : ∀ f : Digit, (F.ord[f].toList.map fun t => F.ts[t][(0 : Digit)].bytes.length).sum = n) (ds : List Digit)
    (h : ds.length = len + 1) : (fontString F ds).length = n := by
  cases ds with
  | nil => cases h
  | cons f ds => rw [fontString, fontRow_length_of_uniform hu _ _ (by simpa using h), hrow f]

/-- The default EAN-13 font gives 15 bytes (R159): in every row, columns 7 and 12 select the tables of two-byte symbols. -/
theorem fontString_default13_length (ds : List Digit) (h : ds.length = 13) :
    (fontString Config.default.font13 ds).length = 15 :=
  fontString_length_of_uniform (by unfold UniformTables; decide) (by decide) ds h

/-- The default EAN-8 font gives 11 bytes (R159): in every row, columns 0, 4 and 7 select the tables of two-byte symbols. -/
theorem fontString_default8_length (ds : List Digit) (h : ds.length = 8) :
    (fontString Config.default.font8 ds).length = 11 :=
  fontString_length_of_uniform (by unfold UniformTables; decide) (by decide) ds h

/-! ### The place of each symbol (R160), and the default rows (R162) -/

/-- In a concatenation, the string of element `i` stands at the sum of the lengths of the strings before it. -/
theorem take_drop_flatMap {α β : Type} (l : List α) (g : α → List β) (i : Nat) (h : i < l.length) :
    ((l.flatMap g).drop ((l.take i).map fun a => (g a).length).sum).take (g l[i]).length = g l[i] := by
  have hsplit : l.flatMap g = (l.take i).flatMap g ++ (g l[i] ++ (l.drop (i + 1)).flatMap g) := by
    rw [← List.flatMap_cons, ← List.drop_eq_getElem_cons h, ← List.flatMap_append, List.take_append_drop]
  rw [hsplit, ← List.length_flatMap, List.drop_left, List.take_left]

/-- Settles O33: the font string is the concatenation of its symbols, left to right. -/
theorem symbolsArePacked : Obligations.SymbolsArePacked := by
  intro tables len F f ds hf hlen i d hd
  cases len with
  | zero => exact i.elim0
  | succ n =>
    obtain ⟨e, rfl⟩ := exists_ofFn _ ds hlen
    have hget : ∀ j : Fin (n + 1), (List.ofFn e)[j.val]? = some (e j) := fun j => by
      rw [List.getElem?_ofFn, dif_pos j.isLt]
    obtain rfl : e 0 = f := by simpa using hf
    obtain rfl : e i = d := Option.some.inj ((hget i).symm.trans hd)
    simp only [fontString_ofFn, List.getD_eq_getElem?_getD, hget, Option.getD_some]
    have hpacked := take_drop_flatMap (List.finRange (n + 1)) (fun j => (F.symbolAt (e 0) j (e j)).bytes) i.val
      (by rw [List.length_finRange]; exact i.isLt)
    rwa [List.getElem_finRange] at hpacked

/-- Settles O34: the default rows are compared, and the four barcodes encoded. -/
theorem defaultRowDependence : Obligations.DefaultRowDependence :=
  ⟨by decide, by decide, by decide, by decide, by decide, by decide⟩

/-! ### The command `ENCODE` (R161) -/

/-- `ENCODE` accepts the full length alone (R104, R161). -/
theorem failsAdmission_encodeOf (v : Variant) (nv : Bool) :
    FailsAdmission (fun k => exec (encodeOf v nv k)) [fullLen v] 1 (BitVec.ofNat 8 (fullLen v)) 0 :=
  failsAdmission_of_admit _ _ (.single (fullLen v)) _ _ _ _ (exec_encodeOf v nv) (fun n => single_has n _) rfl

section Encode
variable {v : Variant} {s : State} {ds : List Digit} (hl : Latched s.blk (digitString ds)) (hlen : ds.length = fullLen v)
include hl hlen

/-- `ENCODE.NV` of a full barcode leaves its font string and no checksum (R161). -/
theorem exec_encodeOf_nv :
    ∃ t, exec (encodeOf v true .text) s = .next t ∧ Completed s t { out := fontenc s.cfg v ds } := by
  refine ⟨_, exec_encodeOf v true .text s, ?_⟩
  rw [encodeResult_nv v s ds hl hlen]
  exact completed_of_complete s _ ((fontenc_length_le s.cfg v ds hlen).trans (by decide))

/-- `ENCODE` of a full barcode leaves its sum and check value, and, if its check digit is right, its font string, and otherwise
`INVALID_BARCODE` (R161). -/
theorem exec_encodeOf_validating :
    ∃ t, exec (encodeOf v false .text) s = .next t ∧
      t.blk.acc.toNat = weightedSum v ds ∧ t.blk.chk.toNat = checkValue s.cfg.checkTen (weightedSum v ds) ∧
      (CheckDigitRight s.cfg.checkTen v ds →
        Completed s t { acc := t.blk.acc, chk := t.blk.chk, out := fontenc s.cfg v ds }) ∧
      (¬ CheckDigitRight s.cfg.checkTen v ds →
        Completed s t { err := true, errcode := 5, acc := t.blk.acc, chk := t.blk.chk }) := by
  refine ⟨_, exec_encodeOf v false .text s, ?_⟩
  by_cases hc : CheckDigitRight s.cfg.checkTen v ds
  · rw [encodeResult_right v s ds hl hlen hc]
    have hfit := fontenc_length_le s.cfg v ds hlen
    exact ⟨payloadAccum_toNat v ds, check_payloadAccum _ v ds,
      fun _ => completed_of_complete s _ (hfit.trans (by decide)), fun hn => absurd hc hn⟩
  · rw [encodeResult_wrong v s ds hl hlen hc]
    exact ⟨payloadAccum_toNat v ds, check_payloadAccum _ v ds, fun hy => absurd hy hc, fun _ => completed_raise s _⟩

end Encode

/-- Settles O24: the font string of the barcode is the symbols of its positions. -/
theorem encodeEan13Completes : Obligations.EncodeEan13Completes := by
  refine ⟨failsAdmission_encodeOf .ean13, fun s d hl => ?_⟩
  have hlen : (List.ofFn d).length = fullLen .ean13 := List.length_ofFn
  rw [← fontString_ofFn s.cfg.font13 d]
  exact ⟨exec_encodeOf_nv hl hlen, exec_encodeOf_validating hl hlen⟩

/-- Settles O25: the font string of the barcode is the symbols of its positions. -/
theorem encodeEan8Completes : Obligations.EncodeEan8Completes := by
  refine ⟨failsAdmission_encodeOf .ean8, fun s d hl => ?_⟩
  have hlen : (List.ofFn d).length = fullLen .ean8 := List.length_ofFn
  rw [← fontString_ofFn s.cfg.font8 d]
  exact ⟨exec_encodeOf_nv hl hlen, exec_encodeOf_validating hl hlen⟩

/-- Settles O31: `OUTLEN` is the length of the font string, one or two bytes for each position. -/
theorem encodedLength : Obligations.EncodedLength := by
  intro v s ds hl hlen
  obtain ⟨t, ht, hc⟩ := exec_encodeOf_nv hl hlen
  have hout : t.blk.outlen.toNat = (fontenc s.cfg v ds).length := hc.outlen
  obtain ⟨hmin, hmax⟩ := fontenc_length_bounds s.cfg v ds hlen
  rw [← hout] at hmin hmax
  refine ⟨t, ht, hmin, hmax, ?_, ?_⟩
  · rintro rfl hfont
    rw [hout, fontenc, hfont, fontString_default13_length ds hlen]
  · rintro rfl hfont
    rw [hout, fontenc, hfont, fontString_default8_length ds hlen]

end Sys2Proof.Machine

/-! PROOFS. The errors: which one a command reports, in the order of the checks, and the message the host forms from it. -/

namespace Sys2Proof.Machine

/-! ### The accepted lengths of a command (R104) -/

/-- The lengths of a rule's list, as a list of numbers. -/
def Accepted.lens : Accepted → List Nat
  | .single n => [n]
  | .either m n => [m, n]

theorem Accepted.has_iff_mem_lens (a : Accepted) (n : Nat) : a.has n = true ↔ n ∈ a.lens := by
  cases a with
  | single m => exact single_has n m
  | either m k => exact either_has n m k

theorem Accepted.lens_injective : Function.Injective Accepted.lens := by
  rintro (m | ⟨m, k⟩) (n | ⟨n, l⟩) h <;> simp_all [Accepted.lens]

/-- The accepted lengths a command's rule hands to the front end. -/
def acceptedOf : Instr → Accepted
  | .checksumEan13 _ => .single (payloadLen .ean13)
  | .isvalidEan13 _ | .encodeEan13 _ _ => .single (fullLen .ean13)
  | .fixEan13 _ => .either (payloadLen .ean13) (fullLen .ean13)
  | .checksumEan8 _ => .single (payloadLen .ean8)
  | .isvalidEan8 _ | .encodeEan8 _ _ => .single (fullLen .ean8)
  | .fixEan8 _ => .either (payloadLen .ean8) (fullLen .ean8)

/-- The rules' lists are those of R104. -/
theorem lens_acceptedOf (i : Instr) : (acceptedOf i).lens = acceptedLens i := by
  cases i <;> rfl

theorem acceptedOf_has_iff (i : Instr) (n : Nat) : (acceptedOf i).has n = true ↔ n ∈ acceptedLens i := by
  rw [Accepted.has_iff_mem_lens, lens_acceptedOf]

/-! ### The record of a command, by the front end's answer (R100, R203) -/

section Record
variable {i : Instr} {s : State}

/-- A command that is not admitted ends in the front end's error, whatever its rule. -/
theorem commandResult_of_admission_error {e : CmdError} (h : admission (argKind i) (acceptedOf i) s.blk = .error e) :
    commandResult i s = raise e := by
  cases i <;> simp only [argKind, acceptedOf] at h <;>
    simp only [commandResult, checksumResult, isvalidResult, fixResult, encodeResult, h]

/-- `ENCODE` of an admitted operand ends in `INVALID_BARCODE` exactly when it validates and the check digit is wrong (R161). -/
theorem encodeResult_errcode {v : Variant} {nv : Bool} {k : ArgKind} {ds : List Digit}
    (h : admission k (.single (fullLen v)) s.blk = .ok ds) :
    (encodeResult v nv k s).errcode =
      if !nv && !checkMatches v (check s.cfg.checkTen (payloadAccum v ds)) ds then 5 else 0 := by
  rw [encodeResult, h]
  cases nv with
  | true => rfl
  | false => cases hm : checkMatches v (check s.cfg.checkTen (payloadAccum v ds)) ds <;> simp [hm, raise]

/-- An admitted command ends in `INVALID_BARCODE` if it validates and the check digit is wrong, and otherwise without an error. -/
theorem commandResult_errcode_of_admission_ok {ds : List Digit}
    (h : admission (argKind i) (acceptedOf i) s.blk = .ok ds) :
    (commandResult i s).errcode =
      if validates i && !checkMatches (variantOf i) (check s.cfg.checkTen (payloadAccum (variantOf i) ds)) ds
      then 5 else 0 := by
  cases i with
  | encodeEan13 nv k | encodeEan8 nv k => exact encodeResult_errcode h
  | _ =>
    simp only [argKind, acceptedOf] at h
    simp [commandResult, checksumResult, isvalidResult, fixResult, h, validates]

/-- The type check comes first (R103). -/
theorem commandResult_nonText (hk : argKind i = .nonText) : commandResult i s = raise .typeMismatch :=
  commandResult_of_admission_error (by rw [hk, admit_nonText])

/-- The length check comes next (R105). -/
theorem commandResult_wrongLength (hk : argKind i = .text) (hlen : s.blk.linlen.toNat ∉ acceptedLens i) :
    commandResult i s = raise (.lengthMismatch (acceptedOf i)) := by
  rw [← acceptedOf_has_iff, Bool.not_eq_true] at hlen
  exact commandResult_of_admission_error (by rw [hk, admit_wrongLength _ _ hlen])

/-- The digit check comes last, at the lowest index (R106). -/
theorem commandResult_firstNonDigit {str : List Byte} {k : Nat} (hk : argKind i = .text) (hl : Latched s.blk str)
    (hlen : str.length ∈ acceptedLens i) (hnd : FirstNonDigit str k) : commandResult i s = raise (.nonDigit k) :=
  commandResult_of_admission_error (by
    rw [hk, admit_firstNonDigit _ _ str k hl ((acceptedOf_has_iff i _).2 hlen) hnd])

/-- On digits of an accepted length the code is 5 when a validating command finds the check digit wrong (R161), and 0 when the command
does not validate or finds it right. -/
theorem commandResult_digits_errcode {ds : List Digit} (hk : argKind i = .text) (hl : Latched s.blk (digitString ds))
    (hlen : ds.length ∈ acceptedLens i) :
    (validates i = true → ¬ CheckDigitRight s.cfg.checkTen (variantOf i) ds → (commandResult i s).errcode = 5) ∧
    (validates i = false ∨ CheckDigitRight s.cfg.checkTen (variantOf i) ds → (commandResult i s).errcode = 0) := by
  have hadm : admission (argKind i) (acceptedOf i) s.blk = .ok ds := by
    rw [hk, admit_digits _ _ ds hl ((acceptedOf_has_iff i _).2 hlen)]
  rw [commandResult_errcode_of_admission_ok hadm, ← checkMatches_iff]
  constructor
  · intro hv hwrong
    simp [hv, hwrong]
  · rintro (hv | hright)
    · simp [hv]
    · simp [hright]

end Record

/-! ### The first error that applies (R204) -/

theorem raise_lengthMismatch_errcode (a : Accepted) : (raise (.lengthMismatch a)).errcode = 3 := by
  cases a <;> rfl

/-- The index of a latched string's first non-digit fits into `ERRL0` (R202). -/
theorem firstNonDigit_lt_256 {b : Block} {str : List Byte} {k : Nat} (hl : Latched b str) (hnd : FirstNonDigit str k) :
    k < 256 := by
  obtain ⟨⟨c, hc, -⟩, -⟩ := hnd
  obtain ⟨hk, -⟩ := List.getElem?_eq_some_iff.1 hc
  have hlen : b.linlen.toNat = str.length := hl.1
  have := b.linlen.isLt
  omega

/-- Settles O20: the engine's step writes the record of the first check that fails. -/
theorem firstApplicableErrorIsReported : Obligations.FirstApplicableErrorIsReported := by
  intro s he
  refine ⟨_, step_engine s he, fun hw => ?_, fun i hd => ?_⟩
  · rw [flightResult_illegal (s := takeTurn s) hw]
    rfl
  · have hrec : flightResult (takeTurn s) = commandResult i s :=
      (flightResult_decoded (s := takeTurn s) hd).trans (commandResult_congr i _ _ rfl rfl rfl)
    rw [hrec]
    refine ⟨fun hk => ?_, fun hk hlen => ?_, fun str k hk hl hlen hnd => ?_, fun ds hk hl hlen => ?_⟩
    · rw [commandResult_nonText hk]
      rfl
    · rw [commandResult_wrongLength hk hlen]
      exact raise_lengthMismatch_errcode _
    · rw [commandResult_firstNonDigit hk hl hlen hnd]
      exact ⟨rfl, Nat.mod_eq_of_lt (firstNonDigit_lt_256 hl hnd)⟩
    · exact commandResult_digits_errcode hk hl hlen

/-! ### The required substrings (R214) -/

/-- The substring of a length error, from the accepted lengths (R214). -/
def lengthSubstring : Accepted → List Byte
  | .single n => ascii "must be " ++ decimal (BitVec.ofNat 8 n) ++ ascii " characters long"
  | .either m n =>
    ascii "must be either of [" ++ decimal (BitVec.ofNat 8 m) ++ ascii "," ++ decimal (BitVec.ofNat 8 n) ++
      ascii "] characters long"

/-- The host finds the accepted lengths in the error registers, and so forms their substring. -/
theorem requiredSubstring_lengthMismatch (a : Accepted) (b : Block) :
    requiredSubstring (complete (raise (.lengthMismatch a)) b) = some (lengthSubstring a) := by
  cases a <;> rfl

/-- Settles O47: the error registers hold the list of accepted lengths, which fixes the substring. -/
theorem requiredSubstrings : Obligations.RequiredSubstrings := by
  refine ⟨fun i s hk => ⟨_, exec_eq i s, ?_⟩, fun i s hk hlen => ⟨_, exec_eq i s, ?_⟩⟩
  · rw [commandResult_nonText hk]
    rfl
  · have hsub : ∀ a : Accepted, acceptedLens i = a.lens →
        requiredSubstring (complete (commandResult i s) s.blk) = some (lengthSubstring a) := fun a ha => by
      rw [commandResult_wrongLength hk hlen, requiredSubstring_lengthMismatch,
        Accepted.lens_injective ((lens_acceptedOf i).trans ha)]
    -- R214's six strings are `lengthSubstring` of the six lists by computation.
    exact ⟨hsub (.single 12), hsub (.single 13), hsub (.single 7), hsub (.single 8), hsub (.either 12 13),
      hsub (.either 7 8)⟩

end Sys2Proof.Machine

/-! PROOFS. The hazards: a command in flight completes, whatever the host does meanwhile (R258). -/

namespace Sys2Proof.Machine

/-- The engine's step leaves the block done and idle (R60). -/
theorem run_one_of_engineMoves {s : State} (h : EngineMoves s) :
    ∃ t, Sys2Proof.core.run 1 s = .next t ∧ t.blk.busy = false ∧ t.blk.done = true :=
  ⟨_, run_one_of_step (M := Sys2Proof.core) (step_engine s h), rfl, rfl⟩

/-- A listed turn of a host in spec takes itself off the list and leaves the command in flight (R54, R63). -/
theorem step_host_busy {s : State} {ts : List Turn} (hb : s.blk.busy = true) (hspec : HostInSpec s)
    (hts : s.env.turns = .host :: ts) :
    ∃ t, step s = .next t ∧ t.blk.busy = true ∧ HostInSpec t ∧ t.env.turns = ts := by
  obtain ⟨t, hturn, ht⟩ := hostTurn_inSpec (s := takeTurn s) hspec
  have hbusy : t.blk.busy = true := (congrArg Block.busy (hostTurn_busy_blk (takeTurn s) t hb hturn)).trans hb
  refine ⟨t, (step_host s (.inl ⟨ts, hts⟩)).trans hturn, hbusy, ht, ?_⟩
  rw [(hostTurn_frame hturn).1, takeTurn_turns, hts, List.tail_cons]

/-- Settles O42, by induction on the turns listed: the engine completes the command, when it is listed or no turn is left, and each
turn of the host before shortens the list and leaves the command in flight. -/
theorem commandInFlightCompletes : Obligations.CommandInFlightCompletes := by
  intro s hb hr hspec
  induction hts : s.env.turns generalizing s with
  | nil =>
    obtain ⟨t, hrun, hdone⟩ := run_one_of_engineMoves ⟨hb, .inr hts⟩
    exact ⟨1, t, Nat.le_add_left 1 _, hrun, hdone⟩
  | cons turn ts ih =>
    cases turn with
    | engine =>
      obtain ⟨t, hrun, hdone⟩ := run_one_of_engineMoves ⟨hb, .inl ⟨ts, hts⟩⟩
      exact ⟨1, t, Nat.le_add_left 1 _, hrun, hdone⟩
    | host =>
      obtain ⟨u, hstep, hbu, hspecu, htsu⟩ := step_host_busy hb hspec hts
      have hru : .reset ∉ u.env.turns := fun hmem => hr (hts ▸ List.mem_cons_of_mem _ (htsu ▸ hmem))
      obtain ⟨k, t, hk, hrun, hdone⟩ := ih u hbu hru hspecu htsu
      exact ⟨k + 1, t, Nat.succ_le_succ hk, run_succ_of_step (M := Sys2Proof.core) hstep hrun, hdone⟩
    | reset => exact absurd (hts ▸ List.mem_cons_self) hr

end Sys2Proof.Machine
